-- ==== Sys2Proof/Word.lean ====
section
/-! DEFINITION. The words of the machine: CSR numbers, register numbers, instruction words, bytes.
A register value is `BitVec n` where `n` is the hart's `XLEN` (spec 00_scope.md R6, R5): the width is
data of the state, so the model covers every `XLEN` at once. -/

namespace Sys2Proof

/-- A CSR specifier: the 12-bit number of bits 31-20 (10_state.md R16, 30_encoding.md R54). -/
abbrev CsrNum := BitVec 12

/-- An integer register number: the 5-bit fields `rs1` and `rd` (30_encoding.md R56, 10_state.md R11). -/
abbrev RegNum := BitVec 5

/-- The 5-bit unsigned immediate `uimm[4:0]` (30_encoding.md R55). -/
abbrev Uimm := BitVec 5

/-- An instruction word, `I[31:0]` (30_encoding.md R50). -/
abbrev InstrWord := BitVec 32

/-- One byte of the instruction space (20_memory.md R30). -/
abbrev Byte := BitVec 8

/-- `1^N` of 00_scope.md R6. -/
abbrev ones (n : Nat) : BitVec n := BitVec.allOnes n

/-- `zext_N(v)` of 00_scope.md R6: zero bits on the left up to `N` bits. -/
abbrev zext (n : Nat) {k : Nat} (v : BitVec k) : BitVec n := v.setWidth n

/-- The low `w` bits of `v`, zero-extended back to its own width: the value of a CSR that is `w` bits
wide (10_state.md R17). -/
def clip {n : Nat} (w : Nat) (v : BitVec n) : BitVec n := (v.setWidth w).setWidth n

end Sys2Proof
end

