-- ==== Sys2Proof/Syntax.lean ====
section
/-! DEFINITION. The instructions: one constructor per row of spec/opcode_table.json, operands in the
assembler's order (30_encoding.md R60). The seven assembler pseudoinstructions of
43_csr_pseudoinstructions.md have no encoding of their own: they are spellings, in Machine/Pseudo.lean. -/

namespace Sys2Proof

/-- The six CSR instructions. Every field holds exactly the values its bits can hold, so that no
combination is reserved (30_encoding.md R58). -/
inductive Instr where
  /-- CSRRW rd, csr, rs1: Atomic Read/Write CSR (40_csr_register_forms.md R65). -/
  | csrrw (rd : RegNum) (csr : CsrNum) (rs1 : RegNum)
  /-- CSRRS rd, csr, rs1: Atomic Read and Set Bits in CSR (R66). -/
  | csrrs (rd : RegNum) (csr : CsrNum) (rs1 : RegNum)
  /-- CSRRC rd, csr, rs1: Atomic Read and Clear Bits in CSR (R67). -/
  | csrrc (rd : RegNum) (csr : CsrNum) (rs1 : RegNum)
  /-- CSRRWI rd, csr, uimm: the immediate form of CSRRW (41_csr_immediate_forms.md R77). -/
  | csrrwi (rd : RegNum) (csr : CsrNum) (uimm : Uimm)
  /-- CSRRSI rd, csr, uimm: the immediate form of CSRRS (R78). -/
  | csrrsi (rd : RegNum) (csr : CsrNum) (uimm : Uimm)
  /-- CSRRCI rd, csr, uimm: the immediate form of CSRRC (R79). -/
  | csrrci (rd : RegNum) (csr : CsrNum) (uimm : Uimm)
  deriving DecidableEq, Repr

end Sys2Proof
end

