-- ==== Sys2Proof/Decode.lean ====
section
/-! DEFINITION. Decoding and encoding, from 30_encoding.md R51 to R59. Total on every byte list and every
word; a word that is not one of the six is rejected by name. -/

namespace Sys2Proof

/-! ## Byte order -/

/-- The word of four bytes, the lowest address first: little-endian (20_memory.md R32). -/
def wordOfBytes (b0 b1 b2 b3 : Byte) : InstrWord := b3 ++ b2 ++ b1 ++ b0

/-- The four bytes of a word, the lowest address first (20_memory.md R32). -/
def bytesOfWord (w : InstrWord) : List Byte :=
  [w.extractLsb' 0 8, w.extractLsb' 8 8, w.extractLsb' 16 8, w.extractLsb' 24 8]

/-! ## Fields (30_encoding.md R51) -/

/-- Bits 31-20. -/
def csrField (w : InstrWord) : CsrNum := w.extractLsb' 20 12

/-- Bits 19-15: `rs1`, or `uimm` in the immediate forms. -/
def rs1Field (w : InstrWord) : RegNum := w.extractLsb' 15 5

/-- Bits 14-12. -/
def funct3Field (w : InstrWord) : BitVec 3 := w.extractLsb' 12 3

/-- Bits 11-7. -/
def rdField (w : InstrWord) : RegNum := w.extractLsb' 7 5

/-- Bits 6-0. -/
def opcodeField (w : InstrWord) : BitVec 7 := w.extractLsb' 0 7

/-- `SYSTEM` (30_encoding.md R52; the number is from general knowledge, G1: notes/assumptions/9). -/
def opcodeSystem : BitVec 7 := 0b1110011#7

/-! ## Decoding -/

/-- `Decode` of 30_encoding.md R57; `none` is `NotZicsr`. The `funct3` numbers are those of R53. -/
def decodeWord (w : InstrWord) : Option Instr :=
  if opcodeField w = opcodeSystem then
    if funct3Field w = 0b001#3 then some (.csrrw (rdField w) (csrField w) (rs1Field w))
    else if funct3Field w = 0b010#3 then some (.csrrs (rdField w) (csrField w) (rs1Field w))
    else if funct3Field w = 0b011#3 then some (.csrrc (rdField w) (csrField w) (rs1Field w))
    else if funct3Field w = 0b101#3 then some (.csrrwi (rdField w) (csrField w) (rs1Field w))
    else if funct3Field w = 0b110#3 then some (.csrrsi (rdField w) (csrField w) (rs1Field w))
    else if funct3Field w = 0b111#3 then some (.csrrci (rdField w) (csrField w) (rs1Field w))
    else none
  else none

/-- What the decoder answers on bytes. -/
inductive Decoded where
  | instr (i : Instr)
  /-- Fewer than the four bytes of an instruction. -/
  | truncated
  /-- Not one of the six CSR instructions (30_encoding.md R59). -/
  | notZicsr (w : InstrWord)
  deriving DecidableEq, Repr

/-- Decoding of the bytes at an address, the lowest first; bytes after the fourth are the next instruction's. -/
def decode : List Byte → Decoded
  | b0 :: b1 :: b2 :: b3 :: _ =>
    match decodeWord (wordOfBytes b0 b1 b2 b3) with
    | some i => .instr i
    | none => .notZicsr (wordOfBytes b0 b1 b2 b3)
  | _ => .truncated

/-- The decoder on a word numbered as spec/opcode_table.json numbers it: bit 0 the least significant bit of
the first word, every bit from `nbits` up zero; laid out as bytes and decoded. -/
def decodeTableWord (nbits w : Nat) : Option Instr :=
  match decode (bytesOfWord (BitVec.ofNat 32 (w % 2 ^ nbits))) with
  | .instr i => some i
  | .truncated => none
  | .notZicsr _ => none

/-! ## Encoding -/

/-- The fields laid out: `csr` 31-20, `rs1` or `uimm` 19-15, `funct3` 14-12, `rd` 11-7, `opcode` 6-0
(30_encoding.md R51, R57). -/
def encodeFields (funct3 : BitVec 3) (rd : RegNum) (csr : CsrNum) (r : BitVec 5) : InstrWord :=
  csr ++ r ++ funct3 ++ rd ++ opcodeSystem

/-- The word of an instruction (30_encoding.md R57). -/
def encode : Instr → InstrWord
  | .csrrw rd csr rs1 => encodeFields 0b001#3 rd csr rs1
  | .csrrs rd csr rs1 => encodeFields 0b010#3 rd csr rs1
  | .csrrc rd csr rs1 => encodeFields 0b011#3 rd csr rs1
  | .csrrwi rd csr uimm => encodeFields 0b101#3 rd csr uimm
  | .csrrsi rd csr uimm => encodeFields 0b110#3 rd csr uimm
  | .csrrci rd csr uimm => encodeFields 0b111#3 rd csr uimm

/-- The bytes of an instruction, the lowest address first. -/
def encodeBytes (i : Instr) : List Byte := bytesOfWord (encode i)

end Sys2Proof
end

