-- ==== Sys2Proof/Machine/Flags.lean ====
section
/-! DEFINITION. There are no flags and no condition codes: no instruction sets one (10_state.md, B3). What
stands here is the bit-level computation of the new value of a CSR (40_csr_register_forms.md R72): OR, AND
with the complement, and the merge under a mask. -/

namespace Sys2Proof.Machine

/-- `op` of 40_csr_register_forms.md R63: `W` write, `S` set, `C` clear. -/
inductive CsrOp where
  | write
  | set
  | clear
  deriving DecidableEq, Repr

/-- The value the instruction computes from the old value `t` and the operand `m` (R63, step 4). `W` does
not use `t`. -/
def newValue {n : Nat} : CsrOp → BitVec n → BitVec n → BitVec n
  | .write, _, m => m
  | .set, t, m => t ||| m
  | .clear, t, m => t &&& ~~~m

/-- The explicit mask `em`: the bits the instruction explicitly writes (10_state.md R18, 40_csr_register_forms.md R63, step 4). -/
def explicitMask {n : Nat} : CsrOp → BitVec n → BitVec n
  | .write, _ => ones n
  | .set, m => m
  | .clear, m => m

/-- `old` with the bits selected by `mask` taken from `v` (10_state.md R19). -/
def mergeBits {n : Nat} (old v mask : BitVec n) : BitVec n := (old &&& ~~~mask) ||| (v &&& mask)

end Sys2Proof.Machine
end

