-- ==== Sys2Proof/Config.lean ====
section
/-! DEFINITION. The configuration `Cfg` of 00_scope.md R5, and the free values.

Every parameter the spec leaves OPEN is either DATA of a `Cfg` (which a statement fixes in its premises or
quantifies over) or, where the spec puts a value or an effect under no law, an `opaque` constant of
`Config`: no body, so that nothing in Lean can evaluate it or prove a value of it. `XLEN` is the index `n`
of `Cfg n`. -/

namespace Sys2Proof

/-! ## The four components of a hart's state (10_state.md R10), as the open functions see them -/

/-- `S.env` (10_state.md R22): everything outside the hart that a CSR access acts on or that acts on a
CSR. `bulb` is the light of the spec's own example (42_csr_access_effects.md R88); `device` stands for all
the rest, opaque: only the free functions below read or change it. -/
structure Env where
  bulb   : Bool
  device : Nat
  deriving DecidableEq, Repr, Inhabited

/-- The state `S` of a hart, exactly the components of 10_state.md R10. -/
structure Arch (n : Nat) where
  /-- `x[1]` to `x[31]`, in that order; `x[0]` has no storage (10_state.md R11, R12). -/
  x   : Vector (BitVec n) 31
  /-- The program counter (10_state.md R14). -/
  pc  : BitVec n
  /-- The storage `S.csr[a]`: CSR numbers with their values, rising; an unlisted number holds zero. -/
  csr : List (Nat × BitVec n)
  /-- Everything outside the hart (10_state.md R22). -/
  env : Env
  deriving DecidableEq, Repr, Inhabited

/-! ## One entry of `CsrMap` (10_state.md R18 to R21, R24) -/

/-- `CsrAccessible(S, a)` of 10_state.md R18. -/
inductive Access where
  /-- The hart may touch the CSR in every state. -/
  | always
  /-- No CSR exists at the number, or the hart may never touch it. -/
  | never
  /-- It depends on the state, in a way the spec leaves open: `Config.freeAccessible`. -/
  | depends
  deriving DecidableEq, Repr, Inhabited

/-- `CsrReadOnly(a)` of 10_state.md R21. -/
inductive ReadOnlyRule where
  | no
  | yes
  /-- The convention 92_eei_decisions.md D11 recommends: read-only when `a[11:10] = 0b11`. -/
  | byNumber
  deriving DecidableEq, Repr, Inhabited

/-- What an explicit read does besides giving the value: its side effects. -/
inductive ReadEffect where
  /-- No side effect: a standard CSR (10_state.md R18). -/
  | none
  /-- The read turns the bulb on (42_csr_access_effects.md R88). -/
  | bulbOn
  /-- Value and side effects under no law but those of 10_state.md R18, R20: `Config.freeRead`. -/
  | free
  deriving DecidableEq, Repr, Inhabited

/-- What an explicit write does besides storing the value. -/
inductive WriteEffect where
  /-- It stores, and nothing else (10_state.md R19). -/
  | none
  /-- An odd value stored turns the bulb off (42_csr_access_effects.md R88). -/
  | bulbOffWhenOdd
  /-- Stored value (legalised or not) and side effects under no law but 10_state.md R18, R20: `Config.freeWrite`. -/
  | free
  deriving DecidableEq, Repr, Inhabited

/-- What executing an instruction does to the CSR by itself: `ImplicitUpdate` (42_csr_access_effects.md R90). -/
inductive ImplicitRule where
  | none
  /-- A retired-instruction counter (42_csr_access_effects.md R91). -/
  | count
  /-- Some modification the spec leaves open: `Config.freeImplicit`. -/
  | free
  deriving DecidableEq, Repr, Inhabited

/-- What `CsrMap` says of one number. -/
structure CsrEntry (n : Nat) where
  access          : Access
  readOnly        : ReadOnlyRule
  /-- `W(a)` (10_state.md R17). -/
  width           : Nat
  /-- The writable mask `wm` (10_state.md R19, R20). -/
  writable        : BitVec n
  onRead          : ReadEffect
  onWrite         : WriteEffect
  implicit        : ImplicitRule
  /-- The environment may change this CSR between two instructions (10_state.md R24). -/
  envAffected     : Bool
  /-- `StronglyOrdered(a)` (20_memory.md R46). -/
  stronglyOrdered : Bool
  deriving DecidableEq, Repr, Inhabited

/-- A plain CSR, `w` bits wide, with writable mask `wm` (10_state.md R19). -/
def CsrEntry.plain {n : Nat} (w : Nat) (wm : BitVec n) : CsrEntry n :=
  { access := .always, readOnly := .no, width := w, writable := wm, onRead := .none, onWrite := .none,
    implicit := .none, envAffected := false, stronglyOrdered := false }

/-- A number where no CSR exists (10_state.md R18, item 1). -/
def CsrEntry.absent (n : Nat) : CsrEntry n :=
  { CsrEntry.plain 0 (0#n) with access := .never }

/-- What follows a raised exception: the parameter `TrapEntry` (60_exceptions.md R108). -/
inductive TrapPolicy where
  /-- The default: the run ends in the outcome `Trap`. -/
  | stop
  /-- The machine goes on in the state `Config.trapEntry` gives, which nothing in the spec constrains. -/
  | enter
  deriving DecidableEq, Repr, Inhabited

/-- The causes of an exception: the spec names one (60_exceptions.md R105, R106). -/
inductive Cause where
  | illegalInstruction
  deriving DecidableEq, Repr, Inhabited

/-- The configuration: `CsrMap` as the entries of the listed numbers and the entry every other number
has, and `TrapEntry`. -/
structure Cfg (n : Nat) where
  listed : List (CsrNum × CsrEntry n)
  rest   : CsrEntry n
  onTrap : TrapPolicy
  deriving DecidableEq, Repr, Inhabited

/-- The entry a list gives a number. -/
def findEntry {n : Nat} : List (CsrNum × CsrEntry n) → CsrNum → Option (CsrEntry n)
  | [], _ => none
  | (b, e) :: t, a => if b = a then some e else findEntry t a

/-- What `CsrMap` says of number `a`. -/
def Cfg.entry {n : Nat} (c : Cfg n) (a : CsrNum) : CsrEntry n := (findEntry c.listed a).getD c.rest

/-- `CsrMap` lists `a` itself. -/
def Cfg.isListed {n : Nat} (c : Cfg n) (a : CsrNum) : Bool := (findEntry c.listed a).isSome

/-! ## The free values -/

/-- The side effects of an access under no law: values offered to CSRs, and the environment after. -/
structure Effect (n : Nat) where
  pokes : List (CsrNum × BitVec n)
  env   : Env
  deriving DecidableEq, Repr, Inhabited

/-- What a read or a write under no law gives: a value (read, or to be stored) and side effects. -/
structure AccessDraw (n : Nat) where
  value  : BitVec n
  effect : Effect n
  deriving DecidableEq, Repr, Inhabited

/-- What `TrapEntry` gives: the registers, the pc and the environment, and values put into CSRs. -/
structure TrapDraw (n : Nat) where
  x   : Vector (BitVec n) 31
  pc  : BitVec n
  csr : List (CsrNum × BitVec n)
  env : Env
  deriving DecidableEq, Repr, Inhabited

/-- `CsrAccessible(S, a)` where `CsrMap` leaves it to the state (10_state.md R18, 60_exceptions.md R112; notes/assumptions/4). -/
opaque Config.freeAccessible {n : Nat} (a : CsrNum) (s : Arch n) : Bool

/-- `CsrRead(S, a)` of a CSR whose read is open (10_state.md R18, 93_implementation_defined.md U4; notes/assumptions/4). -/
opaque Config.freeRead {n : Nat} (a : CsrNum) (s : Arch n) : AccessDraw n

/-- `CsrWrite(S, a, v, em)` of a CSR whose write is open (10_state.md R18, R19, 93_implementation_defined.md U5; notes/assumptions/4). -/
opaque Config.freeWrite {n : Nat} (a : CsrNum) (v em : BitVec n) (s : Arch n) : AccessDraw n

/-- The value executing instruction `word` gives a CSR whose implicit update is open (42_csr_access_effects.md R90, 93_implementation_defined.md U6; notes/assumptions/4). -/
opaque Config.freeImplicit {n : Nat} (a : CsrNum) (word : InstrWord) (s : Arch n) : BitVec n

/-- The value the `k`-th environment step leaves in CSR `a`: a draw under no law (10_state.md R24; notes/assumptions/5). -/
opaque Config.envDraw {n : Nat} (k : Nat) (a : CsrNum) (s : Arch n) : BitVec n

/-- The environment after its `k`-th step (10_state.md R24, 60_exceptions.md R118; notes/assumptions/5). -/
opaque Config.envMove {n : Nat} (k : Nat) (s : Arch n) : Env

/-- `TrapEntry(S, cause, pc, I)`; the pc is `s.pc` (60_exceptions.md R108; notes/assumptions/6). -/
opaque Config.trapEntry {n : Nat} (c : Cause) (word : InstrWord) (s : Arch n) : TrapDraw n

/-- Whether another observer may see two CSR accesses in the other order, when one of them names a strongly
ordered CSR: what strong ordering requires is Volume II's (20_memory.md R46; notes/assumptions/7).
A number comes with whether the access is a write. -/
opaque Config.strongAllowsReorder (a : CsrNum) (aWrites : Bool) (b : CsrNum) (bWrites : Bool) : Bool

/-! ## Configurations -/

/-- Configuration T of 95_test_vectors.md, for any `XLEN`. -/
def configT (n : Nat) : Cfg n :=
  { listed :=
      [ (0x001, .plain 5 (0x1F#n)),
        (0x305, .plain n (ones n &&& ~~~(0x3#n))),
        (0x340, .plain n (ones n)),
        (0x7C0, { CsrEntry.plain n (ones n) with onRead := .bulbOn, onWrite := .bulbOffWhenOdd }),
        (0xB02, { CsrEntry.plain n (ones n) with implicit := .count }),
        (0xF11, { CsrEntry.plain n (0#n) with readOnly := .yes }) ],
    rest := .absent n,
    onTrap := .stop }

/-- The configuration `State.reset` holds: configuration T's six entries, and at every other number a
plain fully writable CSR, read-only by the convention of 92_eei_decisions.md D11.
DESIGN CHOICE: the spec leaves `CsrMap` OPEN (notes/assumptions/2). -/
def resetCfg (n : Nat) : Cfg n :=
  { configT n with rest := { CsrEntry.plain n (ones n) with readOnly := .byNumber } }

/-- The seven CSRs the spec names (10_state.md R23), at their conventional numbers of
93_implementation_defined.md G17. PRESUMED numbers, DESIGN CHOICE widths and masks
(notes/assumptions/8); a configuration like any other, which no rule uses. -/
def configNamed (n : Nat) : Cfg n :=
  { listed :=
      [ (0x003, .plain n (ones n)),                                          -- fcsr
        (0x144, { CsrEntry.plain n (ones n) with envAffected := true }),     -- sip
        (0x344, { CsrEntry.plain n (ones n) with envAffected := true }),     -- mip
        (0xB00, { CsrEntry.plain n (ones n) with envAffected := true }),     -- mcycle
        (0xC00, { CsrEntry.plain n (0#n) with readOnly := .byNumber, envAffected := true }),  -- cycle
        (0xC01, { CsrEntry.plain n (0#n) with readOnly := .byNumber, envAffected := true }),  -- time
        (0xC02, { CsrEntry.plain n (ones n) with implicit := .count }) ],    -- instret
    rest := .absent n,
    onTrap := .stop }

end Sys2Proof
end

