-- ==== Sys2Proof/Machine/State.lean ====
section
/-! DEFINITION. The state, as plain data: a hart (10_state.md R10) together with the parameters of its run
(00_scope.md R5) and the model's own bookkeeping; the reasons a step stops; the state the model starts from. -/

namespace Sys2Proof.Machine

/-- The instruction space: addresses with their bytes, rising; an unlisted address holds no byte, so that
`Prog` is undefined there (20_memory.md R30, R31). -/
abbrev Memory := List Host.Cell

/-- The explicit accesses of one completed instruction to the CSR it names (20_memory.md R49): at most one
read and one write, atomic together. -/
structure CsrAccess (n : Nat) where
  num     : CsrNum
  /-- The value read, if the CSR was read. -/
  read    : Option (BitVec n)
  /-- The value the instruction computed and wrote, if it wrote the CSR; DEDUCED (notes/assumptions/16): not what the
  CSR then holds. -/
  written : Option (BitVec n)
  deriving DecidableEq, Repr, Inhabited

/-- What an outcome `Trap(cause, pc, I)` carries (00_scope.md R8). -/
structure Raised where
  cause : Cause
  pc    : Nat
  word  : InstrWord
  deriving DecidableEq, Repr, Inhabited

/-- A hart of width `n`: its state `x`, `pc`, `csr`, `env` (`Arch`, 10_state.md R10), and beside it: -/
structure Hart (n : Nat) extends Arch n where
  /-- The configuration: a parameter that no step changes (00_scope.md R5). -/
  cfg     : Cfg n
  /-- `Prog`: a parameter that no step changes (20_memory.md R31, R48). -/
  prog    : Memory
  /-- The model's own: how many environment steps have drawn a free value (notes/assumptions/5). -/
  draws   : Nat
  /-- The event history of 20_memory.md R49, newest first; no instruction reads it. -/
  history : List (CsrAccess n)
  /-- The model's own: the exception the last step raised, where `TrapEntry` was taken; none after a completed
  instruction. It keeps the outcome `Trap` apart from `Next` there (00_scope.md R8; notes/assumptions/6). -/
  raised  : Option Raised
  deriving DecidableEq, Repr, Inhabited

/-- The state of the machine: `XLEN` and a hart of that width. -/
structure State where
  xlen : Nat
  hart : Hart xlen
  deriving DecidableEq, Repr, Inhabited

/-- Why a step ends with no next state. No fault changes the state (60_exceptions.md R117). -/
inductive Fault where
  /-- The outcome `Trap(cause, pc, I)` (00_scope.md R8, 60_exceptions.md R102, R103, R108): raised by every one
  of the six instructions on a CSR that is not accessible, and by a writing one on a read-only CSR, when
  `TrapEntry` is not given. SAFE: the chip would run a handler, the model stops. -/
  | trap (cause : Cause) (pc : Nat) (word : InstrWord)
  /-- The outcome `Stuck`: `Fetch` gives no word at `pc` (20_memory.md R31), raised by the step before any
  instruction. SAFE: the chip would raise a fetch exception. -/
  | stuck (pc : Nat)
  deriving DecidableEq, Repr

/-- Why a step is refused. -/
inductive Refusal where
  /-- An instruction of the opcode table that has no meaning yet. No arm of `exec` answers it. SAFE. -/
  | notModelled (mnemonic : String)
  /-- The outcome `Refused(I)`: the word at `pc` is not one of the six (30_encoding.md R59), raised by the step. SAFE. -/
  | notZicsr (word : InstrWord)
  /-- The configuration breaks a law: it is refused, not run (70_reset_and_hazards.md R125), raised by the step. SAFE. -/
  | illFormedConfig
  deriving DecidableEq, Repr

/-- The hart the model starts from. The spec gives no reset value (10_state.md R25): every value below is a
DESIGN CHOICE (notes/assumptions/1, 2, 3): `XLEN` 32, configuration T's entries with every other number
a plain CSR, `pc` at the entry point of the spec's programs, registers and CSRs zero but for configuration
T's constant, no program. -/
def Hart.reset : Hart 32 :=
  { x       := Vector.replicate 31 (0#32),
    pc      := 0x1000#32,
    csr     := [(0x001, 0#32), (0x305, 0#32), (0x340, 0#32), (0x7C0, 0#32), (0xB02, 0#32), (0xF11, 0xABC#32)],
    env     := { bulb := false, device := 0 },
    cfg     := resetCfg 32,
    prog    := [],
    draws   := 0,
    history := [],
    raised  := none }

/-- The state the model starts from (notes/assumptions/1). -/
def State.reset : State := { xlen := 32, hart := Hart.reset }

end Sys2Proof.Machine
end

