-- ==== Sys2Proof/Machine/Ops.lean ====
section
/-! DEFINITION. The named operations: keyed lists, the instruction space and fetch, integer registers, the
interface of one CSR, implicit update, the environment's step, taking an exception. -/

namespace Sys2Proof.Machine

/-! ## Keyed lists: one entry a key, keys rising -/

/-- The value at a key. -/
def assocGet {α : Type} : List (Nat × α) → Nat → Option α
  | [], _ => none
  | (j, w) :: t, k => if j = k then some w else assocGet t k

/-- The list with `v` at key `k`, in its place. -/
def assocPut {α : Type} (k : Nat) (v : α) : List (Nat × α) → List (Nat × α)
  | [] => [(k, v)]
  | (j, w) :: t =>
    if k < j then (k, v) :: (j, w) :: t
    else if j = k then (k, v) :: t
    else (j, w) :: assocPut k v t

/-- The list with nothing at key `k`. -/
def assocErase {α : Type} (k : Nat) : List (Nat × α) → List (Nat × α)
  | [] => []
  | (j, w) :: t => if j = k then assocErase k t else (j, w) :: assocErase k t

/-- Keys strictly rising: the canonical order. -/
abbrev Rising {α : Type} (l : List (Nat × α)) : Prop := (l.map Prod.fst).Pairwise (· < ·)

/-! ## The instruction space -/

/-- The canonical form of memory: addresses strictly rising. (An unlisted address holds no byte, so that no
entry can equal what an unlisted address reads as.) -/
abbrev Memory.wf (m : Memory) : Prop := Rising m

/-- Every listed address lies in the `XLEN`-bit instruction space (20_memory.md R30). -/
abbrev Memory.inSpace (m : Memory) (n : Nat) : Prop := ∀ c ∈ m, c.1 < 2 ^ n

/-- The byte at an address, if `Prog` is defined there. -/
def Memory.read (m : Memory) (a : Nat) : Option Byte := assocGet m a

/-- The memory with byte `v` at address `a`. No instruction calls it (20_memory.md R29): programs are loaded with it. -/
def Memory.write (m : Memory) (a : Nat) (v : Byte) : Memory := assocPut a v m

/-- The word at an address, little-endian (20_memory.md R32), if all four bytes are there. -/
def Memory.readWord (m : Memory) (a : Nat) : Option InstrWord :=
  match m.read a, m.read (a + 1), m.read (a + 2), m.read (a + 3) with
  | some b0, some b1, some b2, some b3 => some (wordOfBytes b0 b1 b2 b3)
  | _, _, _, _ => none

/-- The memory with bytes `bs` from address `a` up. -/
def Memory.writeBytes (m : Memory) (a : Nat) : List Byte → Memory
  | [] => m
  | b :: bs => Memory.writeBytes (m.write a b) (a + 1) bs

/-- `Fetch(S)`: the word at `pc`, when `pc` is a multiple of 4 and `Prog` is defined there (20_memory.md R31, R33). -/
def Hart.fetch {n : Nat} (h : Hart n) : Option InstrWord :=
  if h.pc.toNat % 4 = 0 then h.prog.readWord h.pc.toNat else none

/-- `pc`, lowered to a multiple of 4. -/
def alignedPc {n : Nat} (pc : BitVec n) : BitVec n := BitVec.ofNat n (pc.toNat - pc.toNat % 4)

/-- The hart with the bytes of `w` where it fetches its next instruction; a `pc` that could not fetch is lowered to a multiple of 4. -/
def Hart.withFetchWord {n : Nat} (h : Hart n) (w : InstrWord) : Hart n :=
  { h with pc := alignedPc h.pc,
           prog := h.prog.writeBytes (alignedPc h.pc).toNat (bytesOfWord w) }

/-! ## Integer registers (10_state.md R11, R12) -/

/-- `x[i]`; `x[0]` is zero in every state. -/
def Hart.readReg {n : Nat} (h : Hart n) (i : RegNum) : BitVec n :=
  if hi : i.toNat = 0 then 0#n
  else h.x[i.toNat - 1]'(by have := i.isLt; omega)

/-- `x[i] <- v`; no effect when `i = 0`. -/
def Hart.writeReg {n : Nat} (h : Hart n) (i : RegNum) (v : BitVec n) : Hart n :=
  if hi : i.toNat = 0 then h
  else { h with x := h.x.set (i.toNat - 1) v (by have := i.isLt; omega) }

/-! ## The storage of the CSRs -/

/-- The value stored at a CSR number; zero where nothing is listed. -/
def csrGet {n : Nat} (f : List (Nat × BitVec n)) (a : CsrNum) : BitVec n := (assocGet f a.toNat).getD (0#n)

/-- The storage with `v` at `a`. `keep`: the number is one `CsrMap` lists, whose entry always stands; at any
other number zero is stored by listing nothing, so that equal storages are equal lists. -/
def csrPut {n : Nat} (keep : Bool) (f : List (Nat × BitVec n)) (a : CsrNum) (v : BitVec n) :
    List (Nat × BitVec n) :=
  if keep then assocPut a.toNat v f
  else if v = 0#n then assocErase a.toNat f
  else assocPut a.toNat v f

/-- The canonical form of the storage under a configuration: numbers strictly rising and below 4096, every
listed number of `CsrMap` present, every other entry not zero. -/
abbrev csrFileWf {n : Nat} (c : Cfg n) (f : List (Nat × BitVec n)) : Prop :=
  Rising f ∧ (∀ p ∈ f, p.1 < 4096 ∧ (p.2 ≠ 0#n ∨ c.isListed (BitVec.ofNat 12 p.1) = true))
    ∧ ∀ p ∈ c.listed, (assocGet f p.1.toNat).isSome = true

/-- `S.csr[a]`. -/
def Hart.getCsr {n : Nat} (h : Hart n) (a : CsrNum) : BitVec n := csrGet h.csr a

/-- `csr[a] <- v`. -/
def Hart.setCsr {n : Nat} (h : Hart n) (a : CsrNum) (v : BitVec n) : Hart n :=
  { h with csr := csrPut (h.cfg.isListed a) h.csr a v }

/-- The bulb of 42_csr_access_effects.md R88 turned on or off. -/
def Hart.setBulb {n : Nat} (h : Hart n) (on : Bool) : Hart n := { h with env := { h.env with bulb := on } }

/-! ## The interface of one CSR (10_state.md R18) -/

/-- `CsrAccessible(S, a)`. -/
def Hart.csrAccessible {n : Nat} (h : Hart n) (a : CsrNum) : Bool :=
  match (h.cfg.entry a).access with
  | .always => true
  | .never => false
  | .depends => Config.freeAccessible a h.toArch

/-- `CsrReadOnly(a)` (10_state.md R21); the convention is that of 92_eei_decisions.md D11. -/
def Hart.csrReadOnly {n : Nat} (h : Hart n) (a : CsrNum) : Bool :=
  match (h.cfg.entry a).readOnly with
  | .no => false
  | .yes => true
  | .byNumber => decide (a.extractLsb' 10 2 = 0b11#2)

/-- The writable mask of CSR `a` (10_state.md R20). -/
def Hart.csrMask {n : Nat} (h : Hart n) (a : CsrNum) : BitVec n := (h.cfg.entry a).writable

/-- The side effects of an access under no law: each value offered goes into the writable bits of its CSR,
since no CSR instruction changes a bit that is not writable (10_state.md R20), but not into CSR `skip`. -/
def Hart.applyPokes {n : Nat} (skip : Option CsrNum) : List (CsrNum × BitVec n) → Hart n → Hart n
  | [], h => h
  | (b, v) :: t, h =>
    Hart.applyPokes skip t
      (if skip = some b then h else h.setCsr b (mergeBits (h.getCsr b) v (h.csrMask b)))

/-- `CsrRead(S, a)`: the value, zero-extended from the CSR's width (10_state.md R17), and the state after
the read's side effects. -/
def Hart.csrRead {n : Nat} (h : Hart n) (a : CsrNum) : BitVec n × Hart n :=
  match (h.cfg.entry a).onRead with
  | .none => (clip (h.cfg.entry a).width (h.getCsr a), h)
  | .bulbOn => (clip (h.cfg.entry a).width (h.getCsr a), h.setBulb true)
  | .free =>
    (clip (h.cfg.entry a).width (Config.freeRead a h.toArch).value,
     { Hart.applyPokes none (Config.freeRead a h.toArch).effect.pokes h with
         env := (Config.freeRead a h.toArch).effect.env })

/-- `csr[a]` after a write of `v` under the explicit mask `em`: only writable bits change (10_state.md R19). -/
def Hart.storeCsr {n : Nat} (h : Hart n) (a : CsrNum) (v em : BitVec n) : Hart n :=
  h.setCsr a (mergeBits (h.getCsr a) v (em &&& h.csrMask a))

/-- What a write of `v` under `em` to CSR `a` under no law gives: bits from the CSR's width up address no bit of it
and have no effect (40_csr_register_forms.md R75). -/
def Hart.freeWriteDraw {n : Nat} (h : Hart n) (a : CsrNum) (v em : BitVec n) : AccessDraw n :=
  Config.freeWrite a (clip (h.cfg.entry a).width v) (clip (h.cfg.entry a).width em) h.toArch

/-- `CsrWrite(S, a, v, em)` (10_state.md R18, R19; the bulb: 42_csr_access_effects.md R88). -/
def Hart.csrWrite {n : Nat} (h : Hart n) (a : CsrNum) (v em : BitVec n) : Hart n :=
  match (h.cfg.entry a).onWrite with
  | .none => h.storeCsr a v em
  | .bulbOffWhenOdd =>
    if ((h.storeCsr a v em).getCsr a).getLsbD 0 then (h.storeCsr a v em).setBulb false
    else h.storeCsr a v em
  | .free =>
    { Hart.applyPokes (some a) (h.freeWriteDraw a v em).effect.pokes
        (h.storeCsr a (h.freeWriteDraw a v em).value (ones n)) with
        env := (h.freeWriteDraw a v em).effect.env }

/-! ## CSRs that change without being named -/

/-- For each listed CSR, the value `f` gives it, if any, clipped to the CSR's width. -/
def Hart.updateEach {n : Nat} (f : CsrNum → CsrEntry n → Option (BitVec n)) :
    List (CsrNum × CsrEntry n) → Hart n → Hart n
  | [], h => h
  | (b, e) :: t, h =>
    Hart.updateEach f t
      (match f b e with
       | some v => h.setCsr b (clip e.width v)
       | none => h)

/-- What executing `word` in state `h` makes of CSR `b` by itself (42_csr_access_effects.md R90, R91). -/
def implicitValue {n : Nat} (h : Hart n) (word : InstrWord) (b : CsrNum) (e : CsrEntry n) : Option (BitVec n) :=
  match e.implicit with
  | .none => none
  | .count => some (h.getCsr b + 1#n)
  | .free => some (Config.freeImplicit b word h.toArch)

/-- `ImplicitUpdate(S, I, skip)` (42_csr_access_effects.md R90): the CSR in `skip` is left as it is. -/
def Hart.implicitUpdate {n : Nat} (h : Hart n) (word : InstrWord) (skip : Option CsrNum) : Hart n :=
  Hart.updateEach (fun b e => if skip = some b then none else implicitValue h word b e) h.cfg.listed h

/-- Some CSR is environment-affected: `EnvStep` is not empty (10_state.md R24). -/
def Cfg.envActive {n : Nat} (c : Cfg n) : Bool := c.listed.any (fun p => p.2.envAffected)

/-- The value the environment's step number `h.draws` gives CSR `b`. -/
def envValue {n : Nat} (h : Hart n) (b : CsrNum) (e : CsrEntry n) : Option (BitVec n) :=
  if e.envAffected then some (Config.envDraw h.draws b h.toArch) else none

/-- `EnvStep` (10_state.md R24, 60_exceptions.md R118): whatever the environment did between two
instructions, as one free move; nothing where no CSR is environment-affected. -/
def Hart.envStep {n : Nat} (h : Hart n) : Hart n :=
  if Cfg.envActive h.cfg then
    { Hart.updateEach (envValue h) h.cfg.listed h with
        env := Config.envMove h.draws h.toArch, draws := h.draws + 1 }
  else h

/-! ## Taking an exception (60_exceptions.md R104, R108) -/

/-- The state `TrapEntry` gives (60_exceptions.md R108): any, but for the parameters, and with each CSR's value in
its width; and the record that the step raised. -/
def Hart.enterTrap {n : Nat} (h : Hart n) (c : Cause) (word : InstrWord) : Hart n :=
  let d := Config.trapEntry c word h.toArch
  { d.csr.foldl (fun s p => s.setCsr p.1 (clip (s.cfg.entry p.1).width p.2)) h with
      x := d.x, pc := d.pc, env := d.env, raised := some ⟨c, h.pc.toNat, word⟩ }

/-- `raise` of 00_scope.md R7: by default the outcome `Trap(cause, pc, I)` with the state as it was; where the
configuration takes `TrapEntry`, the state that gives, told apart from a completed instruction's by `raised`. -/
def Hart.raise {n : Nat} (h : Hart n) (c : Cause) (word : InstrWord) : Host.Outcome State Fault Refusal :=
  match h.cfg.onTrap with
  | .stop => .fault (.trap c h.pc.toNat word)
  | .enter => .next ⟨n, h.enterTrap c word⟩

end Sys2Proof.Machine
end

