-- ==== Sys2Proof/Machine/Operands.lean ====
section
/-! DEFINITION. The operand forms: a source register or a 5-bit immediate in bits 19-15; and which of them
decide that a CSR is read or written (42_csr_access_effects.md R82, R83). -/

namespace Sys2Proof.Machine

/-- What bits 19-15 name: a register (register forms), or a number (immediate forms) (30_encoding.md R51, R55). -/
inductive Operand where
  | reg (rs1 : RegNum)
  | imm (uimm : Uimm)
  deriving DecidableEq, Repr

/-- The field itself, `I[19:15]`. -/
def Operand.field : Operand → BitVec 5
  | .reg r => r
  | .imm u => u

/-- The operand `m` of 40_csr_register_forms.md R63, step 2, in the state before the instruction. -/
def Operand.value {n : Nat} (h : Hart n) : Operand → BitVec n
  | .reg r => h.readReg r
  | .imm u => zext n u

/-- `ReadsCsr(op, rd)` (42_csr_access_effects.md R83). -/
def readsCsr (op : CsrOp) (rd : RegNum) : Bool := decide (op ≠ .write) || decide (rd ≠ 0#5)

/-- `WritesCsr(op, r)` (42_csr_access_effects.md R83): on the field, not on a register's value. -/
def writesCsr (op : CsrOp) (r : BitVec 5) : Bool := decide (op = .write) || decide (r ≠ 0#5)

/-! ## The parts of an instruction (40_csr_register_forms.md R64) -/

/-- The operation of an instruction (40_csr_register_forms.md R64). -/
def opOf : Instr → CsrOp
  | .csrrw _ _ _ => .write
  | .csrrs _ _ _ => .set
  | .csrrc _ _ _ => .clear
  | .csrrwi _ _ _ => .write
  | .csrrsi _ _ _ => .set
  | .csrrci _ _ _ => .clear

/-- The source operand of an instruction. -/
def srcOf : Instr → Operand
  | .csrrw _ _ r => .reg r
  | .csrrs _ _ r => .reg r
  | .csrrc _ _ r => .reg r
  | .csrrwi _ _ u => .imm u
  | .csrrsi _ _ u => .imm u
  | .csrrci _ _ u => .imm u

/-- The destination register of an instruction. -/
def rdOf : Instr → RegNum
  | .csrrw rd _ _ => rd
  | .csrrs rd _ _ => rd
  | .csrrc rd _ _ => rd
  | .csrrwi rd _ _ => rd
  | .csrrsi rd _ _ => rd
  | .csrrci rd _ _ => rd

/-- The CSR an instruction names. -/
def csrOf : Instr → CsrNum
  | .csrrw _ a _ => a
  | .csrrs _ a _ => a
  | .csrrc _ a _ => a
  | .csrrwi _ a _ => a
  | .csrrsi _ a _ => a
  | .csrrci _ a _ => a

end Sys2Proof.Machine
end

