-- ==== Sys2Proof/Machine/CsrExec.lean ====
section
/-! DEFINITION. `ExecCsr` of 40_csr_register_forms.md R63, the one procedure the six instructions share. -/

namespace Sys2Proof.Machine

/-- Step 1: the instruction raises the illegal-instruction exception (60_exceptions.md R102, R103). -/
def Hart.csrRaises {n : Nat} (h : Hart n) (op : CsrOp) (src : Operand) (a : CsrNum) : Bool :=
  !h.csrAccessible a || (writesCsr op src.field && h.csrReadOnly a)

/-- Step 3: the explicit read, if there is one: the value read, and the state after its side effects. -/
def Hart.readPhase {n : Nat} (h : Hart n) (reads : Bool) (a : CsrNum) : Option (BitVec n) × Hart n :=
  if reads then (some (h.csrRead a).1, (h.csrRead a).2) else (none, h)

/-- Step 4: the explicit write, if there is one. -/
def Hart.writePhase {n : Nat} (h : Hart n) (writes : Bool) (a : CsrNum) (v em : BitVec n) : Hart n :=
  if writes then h.csrWrite a v em else h

/-- Step 5's `skip`: the CSR the instruction explicitly wrote (42_csr_access_effects.md R93). -/
def skipOf (writes : Bool) (a : CsrNum) : Option CsrNum := if writes then some a else none

/-- Step 6: `rd` receives the value read. -/
def Hart.destPhase {n : Nat} (h : Hart n) (rd : RegNum) : Option (BitVec n) → Hart n
  | some t => h.writeReg rd t
  | none => h

/-- The value step 4 writes: from the value read `t`, which every `S` and `C` has and `W` does not use. -/
def writtenValue {n : Nat} (op : CsrOp) (t : Option (BitVec n)) (m : BitVec n) : BitVec n :=
  newValue op (t.getD (0#n)) m

/-- The state after steps 2 to 5. -/
def Hart.csrEffects {n : Nat} (h : Hart n) (word : InstrWord) (op : CsrOp) (src : Operand) (rd : RegNum)
    (a : CsrNum) : Hart n :=
  let r := h.readPhase (readsCsr op rd) a
  let m := src.value h
  (r.2.writePhase (writesCsr op src.field) a (writtenValue op r.1 m) (explicitMask op m)).implicitUpdate
    word (skipOf (writesCsr op src.field) a)

/-- The event the instruction leaves (20_memory.md R49). -/
def Hart.accessOf {n : Nat} (h : Hart n) (op : CsrOp) (src : Operand) (rd : RegNum) (a : CsrNum) : CsrAccess n :=
  let t := (h.readPhase (readsCsr op rd) a).1
  { num := a, read := t,
    written := if writesCsr op src.field then some (writtenValue op t (src.value h)) else none }

/-- The state of `Next(S')`: steps 2 to 7. The additions to `pc` are modulo `2^XLEN` (10_state.md R15). -/
def Hart.csrNext {n : Nat} (h : Hart n) (word : InstrWord) (op : CsrOp) (src : Operand) (rd : RegNum)
    (a : CsrNum) : Hart n :=
  { (h.csrEffects word op src rd a).destPhase rd (h.readPhase (readsCsr op rd) a).1 with
      pc := h.pc + 4#n,
      history := h.accessOf op src rd a :: h.history,
      raised := none }

/-- `ExecCsr(S, I, op, isImm, rd, a, r)` (40_csr_register_forms.md R63). -/
def execCsr (word : InstrWord) (op : CsrOp) (src : Operand) (rd : RegNum) (a : CsrNum) (s : State) :
    Host.Outcome State Fault Refusal :=
  if s.hart.csrRaises op src a then s.hart.raise .illegalInstruction word
  else .next ⟨s.xlen, s.hart.csrNext word op src rd a⟩

end Sys2Proof.Machine
end

