-- ==== Sys2Proof/Machine/ImmediateForms.lean ====
section
/-! DEFINITION. The immediate forms (41_csr_immediate_forms.md R76 to R79): no integer register is read. -/

namespace Sys2Proof.Machine

/-- CSRRWI (R77): `ExecCsr` with `W` and an immediate. -/
def execCsrrwi (rd : RegNum) (csr : CsrNum) (uimm : Uimm) (s : State) : Host.Outcome State Fault Refusal :=
  execCsr (encode (.csrrwi rd csr uimm)) .write (.imm uimm) rd csr s

/-- CSRRSI (R78): `ExecCsr` with `S` and an immediate. -/
def execCsrrsi (rd : RegNum) (csr : CsrNum) (uimm : Uimm) (s : State) : Host.Outcome State Fault Refusal :=
  execCsr (encode (.csrrsi rd csr uimm)) .set (.imm uimm) rd csr s

/-- CSRRCI (R79): `ExecCsr` with `C` and an immediate. -/
def execCsrrci (rd : RegNum) (csr : CsrNum) (uimm : Uimm) (s : State) : Host.Outcome State Fault Refusal :=
  execCsr (encode (.csrrci rd csr uimm)) .clear (.imm uimm) rd csr s

end Sys2Proof.Machine
end

