-- ==== Sys2Proof/Machine/RegisterForms.lean ====
section
/-! DEFINITION. The register forms (40_csr_register_forms.md R64 to R67). -/

namespace Sys2Proof.Machine

/-- CSRRW, Atomic Read/Write CSR (R65): `ExecCsr` with `W` and a register. -/
def execCsrrw (rd : RegNum) (csr : CsrNum) (rs1 : RegNum) (s : State) : Host.Outcome State Fault Refusal :=
  execCsr (encode (.csrrw rd csr rs1)) .write (.reg rs1) rd csr s

/-- CSRRS, Atomic Read and Set Bits in CSR (R66): `ExecCsr` with `S` and a register. -/
def execCsrrs (rd : RegNum) (csr : CsrNum) (rs1 : RegNum) (s : State) : Host.Outcome State Fault Refusal :=
  execCsr (encode (.csrrs rd csr rs1)) .set (.reg rs1) rd csr s

/-- CSRRC, Atomic Read and Clear Bits in CSR (R67): `ExecCsr` with `C` and a register. -/
def execCsrrc (rd : RegNum) (csr : CsrNum) (rs1 : RegNum) (s : State) : Host.Outcome State Fault Refusal :=
  execCsr (encode (.csrrc rd csr rs1)) .clear (.reg rs1) rd csr s

end Sys2Proof.Machine
end

