-- ==== Sys2Proof/WellFormed.lean ====
section
/-! DEFINITION. What is well formed: instructions (nothing is reserved within the six), and
configurations (70_reset_and_hazards.md R125: one that breaks a law is refused, not run). The operand
ranges of an assembler term are checked in Machine/Pseudo.lean. -/

namespace Sys2Proof

/-- Every value of every field is allowed, 6 * 2^22 words in all (30_encoding.md R58). -/
def Instr.wf : Instr → Bool
  | .csrrw _ _ _ => true
  | .csrrs _ _ _ => true
  | .csrrc _ _ _ => true
  | .csrrwi _ _ _ => true
  | .csrrsi _ _ _ => true
  | .csrrci _ _ _ => true

/-- `W(a) <= XLEN` (10_state.md R17), and no writable bit at or above `W(a)` (R19, 70_reset_and_hazards.md R125). -/
def CsrEntry.wf {n : Nat} (e : CsrEntry n) : Bool :=
  decide (e.width ≤ n) && decide (clip e.width e.writable = e.writable)

/-- Neither instruction execution nor the environment changes such a CSR by itself. -/
def CsrEntry.still {n : Nat} (e : CsrEntry n) : Bool :=
  decide (e.implicit = .none) && !e.envAffected

/-- The listed numbers rise strictly: one entry for a number. -/
abbrev risingNumbers {n : Nat} (l : List (CsrNum × CsrEntry n)) : Prop :=
  (l.map (fun p => p.1.toNat)).Pairwise (· < ·)

/-- A well-formed configuration (70_reset_and_hazards.md R125): `XLEN >= 5` (00_scope.md R5), one entry for
a number, every entry well formed, and the CSRs that `ImplicitUpdate` and `EnvStep` can change stated, that
is listed. -/
def Cfg.wf {n : Nat} (c : Cfg n) : Bool :=
  decide (5 ≤ n) && decide (risingNumbers c.listed) && c.listed.all (fun p => p.2.wf)
    && c.rest.wf && c.rest.still

end Sys2Proof
end

