-- ==== Sys2Proof/Machine/HartStep.lean ====
section
/-! DEFINITION. A step of the hart (40_csr_register_forms.md R64, 60_exceptions.md R116), the environment's move
after it (10_state.md R24), and which of the four outcomes of 00_scope.md R8 a step has. -/

namespace Sys2Proof.Machine

/-- A step of the hart alone: the conditions of 60_exceptions.md R116 in its order, for a configuration that is
well formed (70_reset_and_hazards.md R125). -/
def hartStep (s : State) : Host.Outcome State Fault Refusal :=
  if s.hart.cfg.wf then
    match s.hart.fetch with
    | none => .fault (.stuck s.hart.pc.toNat)
    | some w =>
      match decodeWord w with
      | none => .refused (.notZicsr w)
      | some i => exec i s
  else .refused .illFormedConfig

/-- The environment's move between this instruction and the next, after a step with a next state. No other outcome
changes the state (60_exceptions.md R117). -/
def afterEnv : Host.Outcome State Fault Refusal → Host.Outcome State Fault Refusal
  | .next t => .next ⟨t.xlen, t.hart.envStep⟩
  | .fault r => .fault r
  | .refused r => .refused r

/-- The four outcomes of 00_scope.md R8. -/
inductive StepKind where
  | next
  | trap (r : Raised)
  | stuck
  | refused
  deriving DecidableEq, Repr

/-- The kind of a step's outcome. A raised exception is `trap` in both forms of 60_exceptions.md R108: the step
stopped, or it goes on in the state `TrapEntry` gives. -/
def stepKind : Host.Outcome State Fault Refusal → StepKind
  | .next t =>
    match t.hart.raised with
    | some r => .trap r
    | none => .next
  | .fault (.trap c pc word) => .trap ⟨c, pc, word⟩
  | .fault (.stuck _) => .stuck
  | .refused _ => .refused

end Sys2Proof.Machine
end

