-- ==== Sys2Proof/Machine/Step.lean ====
section
/-! DEFINITION. One step of the machine: a step of the hart, and the environment's move after it. -/

namespace Sys2Proof.Machine

/-- One step (40_csr_register_forms.md R64, 10_state.md R24; notes/assumptions/5). -/
def step (s : State) : Host.Outcome State Fault Refusal := afterEnv (hartStep s)

/-- `s` with the instruction `w` (numbered as spec/opcode_table.json numbers it; every bit from `nbits` up
zero) where `step` fetches its next instruction. -/
def State.withFetchWord (s : State) (nbits w : Nat) : State :=
  ⟨s.xlen, s.hart.withFetchWord (BitVec.ofNat 32 (w % 2 ^ nbits))⟩

end Sys2Proof.Machine
end

