-- ==== Sys2Proof/Machine/Ordering.lean ====
section
/-! DEFINITION. What another hart or a device may see of this hart's CSR accesses
(20_memory.md R36 to R46, R49). The hart itself sees program order (R37), which holds by construction: the
state an instruction starts from is the state its predecessor left. Nothing here changes a step. -/

namespace Sys2Proof.Machine

/-- The classes a FENCE gives CSR accesses (20_memory.md R42). -/
inductive AccessClass where
  /-- I: a CSR read. -/
  | deviceInput
  /-- O: a CSR write. -/
  | deviceOutput
  deriving DecidableEq, Repr

/-- One event of the history (20_memory.md R49). `instr` numbers the completed instructions in program order. -/
structure CsrEvent (n : Nat) where
  instr : Nat
  cls   : AccessClass
  num   : CsrNum
  value : BitVec n
  deriving DecidableEq, Repr

/-- The events of one instruction's accesses: the read, then the write. -/
def CsrAccess.events {n : Nat} (k : Nat) (x : CsrAccess n) : List (CsrEvent n) :=
  (match x.read with | some v => [⟨k, .deviceInput, x.num, v⟩] | none => [])
    ++ (match x.written with | some v => [⟨k, .deviceOutput, x.num, v⟩] | none => [])

/-- The events of a history (newest first), in program order. -/
def eventsOf {n : Nat} : List (CsrAccess n) → List (CsrEvent n)
  | [] => []
  | x :: older => eventsOf older ++ x.events older.length

/-- `StronglyOrdered(a)` (20_memory.md R46). -/
def Cfg.strong {n : Nat} (c : Cfg n) (a : CsrNum) : Bool := (c.entry a).stronglyOrdered

/-- Another observer may see `f` before `e`, where `e` comes first in program order: not where both are accesses of one
instruction; two accesses are weakly ordered by default (R40); where one names a strongly ordered CSR the answer is
open (R46). DEDUCED: the first, from R34 and R49 (notes/assumptions/7). -/
def mayReorder {n : Nat} (c : Cfg n) (e f : CsrEvent n) : Bool :=
  decide (e.instr ≠ f.instr) &&
    (if Cfg.strong c e.num || Cfg.strong c f.num then
      Config.strongAllowsReorder e.num (decide (e.cls = .deviceOutput)) f.num (decide (f.cls = .deviceOutput))
     else true)

/-- Between two accesses of one instruction an observer sees no access of another instruction. DEDUCED: what "atomic
together" (20_memory.md R49) and "a single action with respect to every other agent" (40_csr_register_forms.md R73)
mean for this hart's own accesses, which the spec leaves open (92_eei_decisions.md D22; notes/assumptions/7). -/
def unsplit {n : Nat} (seen : List (CsrEvent n)) : Prop :=
  ∀ e g f, List.Sublist [e, g, f] seen → e.instr = f.instr → g.instr = e.instr

/-- An order in which another observer may see the events of a history: all of them, two of them in the other order
only where that is allowed, the accesses of one instruction together. -/
def observable {n : Nat} (c : Cfg n) (program seen : List (CsrEvent n)) : Prop :=
  seen.Perm program ∧
    (∀ e f, List.Sublist [e, f] program → List.Sublist [f, e] seen → mayReorder c e f = true) ∧
    unsplit seen

/-- Events as a history lists them: each once, instruction by instruction. -/
def inProgramOrder {n : Nat} (p : List (CsrEvent n)) : Prop :=
  p.Nodup ∧ p.Pairwise (fun e f => e.instr ≤ f.instr)

end Sys2Proof.Machine
end

