-- ==== Sys2Proof/Machine/Pseudo.lean ====
section
/-! DEFINITION. Assembler terms: the six instructions and the seven pseudoinstructions
(30_encoding.md R60 to R62, 43_csr_pseudoinstructions.md R94 to R101). A pseudoinstruction has no encoding and no
meaning of its own: it is the instruction it stands for. Operands are numbers, checked here
against the widths of their fields (30_encoding.md R61). -/

namespace Sys2Proof.Machine

/-- An assembler term, operands in the order destination, CSR, source (30_encoding.md R60). -/
inductive Asm where
  | csrrw (rd csr rs1 : Nat)
  | csrrs (rd csr rs1 : Nat)
  | csrrc (rd csr rs1 : Nat)
  | csrrwi (rd csr uimm : Nat)
  | csrrsi (rd csr uimm : Nat)
  | csrrci (rd csr uimm : Nat)
  /-- CSRR rd, csr: read a CSR (43_csr_pseudoinstructions.md R94). -/
  | csrr (rd csr : Nat)
  /-- CSRW csr, rs1: write a CSR (R95). -/
  | csrw (csr rs1 : Nat)
  /-- CSRWI csr, uimm (R96). -/
  | csrwi (csr uimm : Nat)
  /-- CSRS csr, rs1: set bits (R97, R98). -/
  | csrs (csr rs1 : Nat)
  /-- CSRC csr, rs1: clear bits (R97, R99). -/
  | csrc (csr rs1 : Nat)
  /-- CSRSI csr, uimm (R97, R100). -/
  | csrsi (csr uimm : Nat)
  /-- CSRCI csr, uimm (R97, R101). -/
  | csrci (csr uimm : Nat)
  deriving DecidableEq, Repr

/-- Every operand fits its field: register numbers and `uimm` 0 to 31, CSR numbers 0 to 4095. -/
def Asm.wf : Asm → Bool
  | .csrrw rd csr r => decide (rd < 32) && decide (csr < 4096) && decide (r < 32)
  | .csrrs rd csr r => decide (rd < 32) && decide (csr < 4096) && decide (r < 32)
  | .csrrc rd csr r => decide (rd < 32) && decide (csr < 4096) && decide (r < 32)
  | .csrrwi rd csr u => decide (rd < 32) && decide (csr < 4096) && decide (u < 32)
  | .csrrsi rd csr u => decide (rd < 32) && decide (csr < 4096) && decide (u < 32)
  | .csrrci rd csr u => decide (rd < 32) && decide (csr < 4096) && decide (u < 32)
  | .csrr rd csr => decide (rd < 32) && decide (csr < 4096)
  | .csrw csr r => decide (csr < 4096) && decide (r < 32)
  | .csrwi csr u => decide (csr < 4096) && decide (u < 32)
  | .csrs csr r => decide (csr < 4096) && decide (r < 32)
  | .csrc csr r => decide (csr < 4096) && decide (r < 32)
  | .csrsi csr u => decide (csr < 4096) && decide (u < 32)
  | .csrci csr u => decide (csr < 4096) && decide (u < 32)

/-- The instruction a well-formed term stands for (30_encoding.md R62). -/
def Asm.instr : Asm → Instr
  | .csrrw rd csr r => .csrrw (.ofNat 5 rd) (.ofNat 12 csr) (.ofNat 5 r)
  | .csrrs rd csr r => .csrrs (.ofNat 5 rd) (.ofNat 12 csr) (.ofNat 5 r)
  | .csrrc rd csr r => .csrrc (.ofNat 5 rd) (.ofNat 12 csr) (.ofNat 5 r)
  | .csrrwi rd csr u => .csrrwi (.ofNat 5 rd) (.ofNat 12 csr) (.ofNat 5 u)
  | .csrrsi rd csr u => .csrrsi (.ofNat 5 rd) (.ofNat 12 csr) (.ofNat 5 u)
  | .csrrci rd csr u => .csrrci (.ofNat 5 rd) (.ofNat 12 csr) (.ofNat 5 u)
  | .csrr rd csr => .csrrs (.ofNat 5 rd) (.ofNat 12 csr) 0#5
  | .csrw csr r => .csrrw 0#5 (.ofNat 12 csr) (.ofNat 5 r)
  | .csrwi csr u => .csrrwi 0#5 (.ofNat 12 csr) (.ofNat 5 u)
  | .csrs csr r => .csrrs 0#5 (.ofNat 12 csr) (.ofNat 5 r)
  | .csrc csr r => .csrrc 0#5 (.ofNat 12 csr) (.ofNat 5 r)
  | .csrsi csr u => .csrrsi 0#5 (.ofNat 12 csr) (.ofNat 5 u)
  | .csrci csr u => .csrrci 0#5 (.ofNat 12 csr) (.ofNat 5 u)

/-- The assembler: the word of a term, or nothing where an operand does not fit. -/
def assemble (t : Asm) : Option InstrWord := if t.wf then some (encode t.instr) else none

end Sys2Proof.Machine
end

