-- ==== Sys2Proof/Safety.lean ====
section
/-! DEFINITION. Launch, runs and what counts as a good end (70_reset_and_hazards.md R121, R122); the invariant of
the state; the terms the statements use. -/

namespace Sys2Proof.Machine

/-- The launch premises of 70_reset_and_hazards.md R121 that concern the machine: `pc` at `pc0`, the
program a contiguous straight line from `pc0` up to `endPc`, the configuration well formed. Premise 4, no
interrupt and no trap made due by a CSR value, is the model's own shape (notes/assumptions/10). -/
structure Launched (pc0 endPc : Nat) (s : State) : Prop where
  pc_eq      : s.hart.pc.toNat = pc0
  pc_aligned : pc0 % 4 = 0
  defined    : (s.hart.prog.readWord pc0).isSome = true
  end_aligned : endPc % 4 = 0
  line       : ∀ k, pc0 ≤ 4 * k → 4 * k < endPc → (s.hart.prog.readWord (4 * k)).isSome = true
  config     : s.hart.cfg.wf = true

/-- How a run stands. -/
inductive RunEnd where
  /-- `pc = End` after a `Next` step, in the state at that moment (70_reset_and_hazards.md R122): the only good end. -/
  | endedWell (t : State)
  /-- A step raised an exception and `TrapEntry` was taken, giving `t`: a run that reaches `Trap` has not ended well
  (R122), and has no further step (60_exceptions.md R117). The machine can go on from `t`. -/
  | trapped (t : State)
  /-- The steps allowed are used up and none ended the run. -/
  | notYet (t : State)
  | fault (r : Fault)
  | refused (r : Refusal)
  deriving DecidableEq, Repr

/-- A run of at most `k` steps of the hart up to `endPc` (70_reset_and_hazards.md R122, 60_exceptions.md R117): the
environment moves between two steps of the hart, not after the last. DESIGN CHOICE: also where `TrapEntry` is taken
a raised exception ends the run, and badly, wherever `pc` then is (notes/assumptions/6). -/
def runTo (endPc : Nat) : Nat → State → RunEnd
  | 0, s => .notYet s
  | k + 1, s =>
    match hartStep s with
    | .next t =>
      if t.hart.raised.isSome then .trapped t
      else if t.hart.pc.toNat = endPc then .endedWell t
      else runTo endPc k ⟨t.xlen, t.hart.envStep⟩
    | .fault r => .fault r
    | .refused r => .refused r

/-- Each CSR's stored value lies in its width (10_state.md R17, R19). -/
def Hart.inWidth {n : Nat} (h : Hart n) : Prop :=
  ∀ a : CsrNum, clip (h.cfg.entry a).width (h.getCsr a) = h.getCsr a

/-- The invariant of the state: the configuration is well formed, the storage of the CSRs canonical and within
the CSRs' widths, the program canonical and within the instruction space. -/
structure Hart.Inv {n : Nat} (h : Hart n) : Prop where
  config  : h.cfg.wf = true
  file    : csrFileWf h.cfg h.csr
  width   : h.inWidth
  program : h.prog.wf
  space   : h.prog.inSpace n

/-- The invariant, of a state. -/
def State.Inv (s : State) : Prop := s.hart.Inv

/-! ## Terms the statements use -/

/-- The instruction raises the illegal-instruction exception in `h`: its CSR is not accessible, or it writes a
read-only CSR (60_exceptions.md R102, R103). -/
abbrev Raises {n : Nat} (h : Hart n) (i : Instr) : Prop :=
  h.csrAccessible (csrOf i) = false ∨
    (writesCsr (opOf i) (srcOf i).field = true ∧ h.csrReadOnly (csrOf i) = true)

/-- The outcome `Trap(IllegalInstruction, pc, I)` of instruction `i`. -/
def illegal {n : Nat} (h : Hart n) (i : Instr) : Host.Outcome State Fault Refusal :=
  .fault (.trap .illegalInstruction h.pc.toNat (encode i))

/-- The CSR is an ordinary read/write one: accessible, not read-only, no side effects. -/
abbrev Ordinary {n : Nat} (h : Hart n) (a : CsrNum) : Prop :=
  h.csrAccessible a = true ∧ h.csrReadOnly a = false ∧
    (h.cfg.entry a).onRead = .none ∧ (h.cfg.entry a).onWrite = .none

/-- Nothing of the configuration is under no law: every access and every implicit update is one the spec gives. -/
def Cfg.settled {n : Nat} (c : Cfg n) : Prop :=
  ∀ a : CsrNum, (c.entry a).access ≠ .depends ∧ (c.entry a).onRead ≠ .free
    ∧ (c.entry a).onWrite ≠ .free ∧ (c.entry a).implicit ≠ .free

end Sys2Proof.Machine
end

