-- ==== Sys2Proof/Certificates/Slice0/Obligations.lean ====
section
/-! DEFINITION. The statements for the provers. Each says which rule of spec/ it formalises; those whose `basis` is
derived say what they rest on. Statements about one step of the six instructions are about `exec`; `step` adds the
fetch before and the environment's move after (`StepRunsDecodedInstruction`). -/

open Sys2Proof Sys2Proof.Machine

/-! ## Encoding -/

/-- Decoding the word, or the bytes, of any instruction gives it back, every operand at every value (30_encoding.md
R57, R58). The numbers of `opcode` and `funct3` are the spec's general knowledge (R52, R53; notes/assumptions/9). -/
def Obligations.DecodeOfEncodeIsIdentity : Prop :=
  ∀ i : Instr, i.wf = true →
    decodeWord (encode i) = some i ∧ decode (encodeBytes i) = .instr i ∧
      decodeTableWord 32 (encode i).toNat = some i

/-- A word that decodes is the word of the instruction it decodes to: no two words mean one instruction
(30_encoding.md R57). The numbers of `opcode` and `funct3` are as in notes/assumptions/9. -/
def Obligations.EncodeOfDecodedWordIsThatWord : Prop :=
  ∀ (w : InstrWord) (i : Instr), decodeWord w = some i → encode i = w

/-- 30_encoding.md R57: the match and mask table with the fields at their places, what is left over, and `Encode`. The
numbers of `opcode` and `funct3` are the spec's general knowledge (R52, R53; notes/assumptions/9). -/
def Obligations.DecodeFollowsMatchAndMaskTable : Prop :=
  (∀ w : InstrWord,
    let rd : RegNum := w.extractLsb' 7 5
    let a : CsrNum := w.extractLsb' 20 12
    let r : RegNum := w.extractLsb' 15 5
    (w &&& 0x0000707F#32 = 0x00001073#32 ↔ decodeWord w = some (.csrrw rd a r)) ∧
    (w &&& 0x0000707F#32 = 0x00002073#32 ↔ decodeWord w = some (.csrrs rd a r)) ∧
    (w &&& 0x0000707F#32 = 0x00003073#32 ↔ decodeWord w = some (.csrrc rd a r)) ∧
    (w &&& 0x0000707F#32 = 0x00005073#32 ↔ decodeWord w = some (.csrrwi rd a r)) ∧
    (w &&& 0x0000707F#32 = 0x00006073#32 ↔ decodeWord w = some (.csrrsi rd a r)) ∧
    (w &&& 0x0000707F#32 = 0x00007073#32 ↔ decodeWord w = some (.csrrci rd a r)) ∧
    (decodeWord w = none ↔
      w &&& 0x0000707F#32 ∉ [0x1073#32, 0x2073#32, 0x3073#32, 0x5073#32, 0x6073#32, 0x7073#32])) ∧
  (∀ (f : BitVec 3) (rd : RegNum) (a : CsrNum) (r : BitVec 5),
    encodeFields f rd a r =
      (a.setWidth 32 <<< 20) ||| (r.setWidth 32 <<< 15) ||| (f.setWidth 32 <<< 12)
        ||| (rd.setWidth 32 <<< 7) ||| 0x73#32)

/-- 30_encoding.md R59: which words are not CSR instructions; the step refuses them, and raises nothing. That they are
refused is the spec's decision D9. -/
def Obligations.OtherWordsAreRefused : Prop :=
  (∀ w : InstrWord, decodeWord w = none ↔
    (w.extractLsb' 0 7 ≠ 0b1110011#7 ∨ w.extractLsb' 12 3 = 0b000#3 ∨ w.extractLsb' 12 3 = 0b100#3)) ∧
  (∀ (n : Nat) (h : Hart n) (w : InstrWord), h.cfg.wf = true → h.fetch = some w → decodeWord w = none →
    step ⟨n, h⟩ = .refused (.notZicsr w))

/-- Words of 95_test_vectors.md (E1 to E9), written out bit by bit: csr, rs1 or uimm, funct3, rd, opcode. The numbers
are as in notes/assumptions/9. -/
def Obligations.DecodeOfWrittenOutWords : Prop :=
  decodeWord 0b00110100000000110001001011110011#32 = some (.csrrw 5 0x340 6) ∧
  decodeWord 0b00110100000001000010001111110011#32 = some (.csrrs 7 0x340 8) ∧
  decodeWord 0b00110100000001010011010011110011#32 = some (.csrrc 9 0x340 10) ∧
  decodeWord 0b00110100000011111101001101110011#32 = some (.csrrwi 6 0x340 31) ∧
  decodeWord 0b00110100000010000110001011110011#32 = some (.csrrsi 5 0x340 16) ∧
  decodeWord 0b00000000000110101111001111110011#32 = some (.csrrci 7 0x001 21) ∧
  decodeWord 0b11111111111111111001111111110011#32 = some (.csrrw 31 0xFFF 31) ∧
  decodeWord 0b00000000000000000001000001110011#32 = some (.csrrw 0 0x000 0)

/-! ## The step -/

/-- When the word at `pc` decodes to `i`, a step of the hart is `exec i`, and a step is that and the environment's move
after it (40_csr_register_forms.md R64, 10_state.md R24). One free move of the environment after each step with a next
state is the model's choice (notes/assumptions/5). -/
def Obligations.StepRunsDecodedInstruction : Prop :=
  ∀ (n : Nat) (h : Hart n) (w : InstrWord) (i : Instr),
    h.cfg.wf = true → h.fetch = some w → decodeWord w = some i →
    hartStep ⟨n, h⟩ = exec i ⟨n, h⟩ ∧
    step ⟨n, h⟩ =
      match exec i ⟨n, h⟩ with
      | .next t => .next ⟨t.xlen, t.hart.envStep⟩
      | .fault r => .fault r
      | .refused r => .refused r

/-- 60_exceptions.md R116: the outcome of each condition, in its order; the four outcomes of 00_scope.md R8 are kept apart
also where `TrapEntry` is taken. The rows are the spec's derivations and decisions (D4, D6, D9, D10, D12, D14); the
environment's move is notes/assumptions/5, the record of a trap taken notes/assumptions/6. -/
def Obligations.StepOutcomeByCondition : Prop :=
  ∀ (n : Nat) (h : Hart n), h.cfg.wf = true →
    ((h.pc.toNat % 4 ≠ 0 ∨ h.prog.readWord h.pc.toNat = none) →
      step ⟨n, h⟩ = .fault (.stuck h.pc.toNat) ∧ stepKind (step ⟨n, h⟩) = .stuck) ∧
    (∀ w, h.pc.toNat % 4 = 0 → h.prog.readWord h.pc.toNat = some w →
      (decodeWord w = none →
        step ⟨n, h⟩ = .refused (.notZicsr w) ∧ stepKind (step ⟨n, h⟩) = .refused) ∧
      (∀ i, decodeWord w = some i →
        ((h.csrAccessible (csrOf i) = false ∨
            (writesCsr (opOf i) (srcOf i).field = true ∧ h.csrReadOnly (csrOf i) = true)) →
          stepKind (step ⟨n, h⟩) = .trap ⟨.illegalInstruction, h.pc.toNat, w⟩ ∧
          (h.cfg.onTrap = .stop → step ⟨n, h⟩ = .fault (.trap .illegalInstruction h.pc.toNat w))) ∧
        (h.csrAccessible (csrOf i) = true →
          ¬ (writesCsr (opOf i) (srcOf i).field = true ∧ h.csrReadOnly (csrOf i) = true) →
          stepKind (step ⟨n, h⟩) = .next ∧
          ∃ t : Hart n, exec i ⟨n, h⟩ = .next ⟨n, t⟩ ∧ step ⟨n, h⟩ = .next ⟨n, t.envStep⟩)))

/-- A configuration that breaks a law is refused, not run; one that is run has `XLEN >= 5`, no CSR wider than `XLEN`
and no writable bit above a CSR's width (70_reset_and_hazards.md R125; 10_state.md R17, R19). A derivation of the
spec; what is checked is notes/assumptions/12. -/
def Obligations.IllFormedConfigurationIsRefused : Prop :=
  (∀ (n : Nat) (h : Hart n), h.cfg.wf = false → step ⟨n, h⟩ = .refused .illFormedConfig) ∧
  (∀ (n : Nat) (c : Cfg n), c.wf = true →
    5 ≤ n ∧ ∀ a : CsrNum, (c.entry a).width ≤ n ∧
      ∀ k, (c.entry a).width ≤ k → (c.entry a).writable.getLsbD k = false)

/-- A fetch gives the four bytes at an aligned `pc`, little-endian, and otherwise nothing, and then there is no step
(20_memory.md R31, R32). The spec's decisions D4, D5, D6. -/
def Obligations.FetchIsTheLittleEndianWordAtPc : Prop :=
  (∀ (n : Nat) (h : Hart n) (w : InstrWord),
    h.fetch = some w ↔
      (h.pc.toNat % 4 = 0 ∧ ∃ b0 b1 b2 b3 : Byte,
        h.prog.read h.pc.toNat = some b0 ∧ h.prog.read (h.pc.toNat + 1) = some b1 ∧
        h.prog.read (h.pc.toNat + 2) = some b2 ∧ h.prog.read (h.pc.toNat + 3) = some b3 ∧
        w = b3 ++ b2 ++ b1 ++ b0)) ∧
  (∀ (n : Nat) (h : Hart n), h.cfg.wf = true → h.fetch = none → step ⟨n, h⟩ = .fault (.stuck h.pc.toNat))

/-- The word `withFetchWord` places is the one the next step fetches; nothing else changes but, where it could not
fetch, `pc` (the model's own; notes/assumptions/3). -/
def Obligations.PlacedWordIsFetched : Prop :=
  ∀ (n : Nat) (h : Hart n) (nbits w : Nat),
    ∃ t : Hart n, State.withFetchWord ⟨n, h⟩ nbits w = ⟨n, t⟩ ∧
      t.fetch = some (BitVec.ofNat 32 (w % 2 ^ nbits)) ∧
      t.x = h.x ∧ t.csr = h.csr ∧ t.env = h.env ∧ t.cfg = h.cfg ∧ t.draws = h.draws ∧ t.history = h.history ∧
      t.raised = h.raised ∧ (h.pc.toNat % 4 = 0 → t.pc = h.pc) ∧
      (∀ k, (k < t.pc.toNat ∨ t.pc.toNat + 4 ≤ k) → t.prog.read k = h.prog.read k)

/-- 20_memory.md R33: a `pc` that is not a multiple of 4 has no step, and no instruction makes such a `pc` from an
aligned one. The spec's decisions D3 and D6. -/
def Obligations.StepKeepsPcAligned : Prop :=
  (∀ (n : Nat) (h : Hart n), h.cfg.wf = true → h.pc.toNat % 4 ≠ 0 → step ⟨n, h⟩ = .fault (.stuck h.pc.toNat)) ∧
  (∀ (s t : State), s.hart.cfg.onTrap = .stop → s.hart.pc.toNat % 4 = 0 → step s = .next t →
    t.hart.pc.toNat % 4 = 0)

/-- 20_memory.md R48: no step changes the program; nor `XLEN`, nor the configuration. The spec's decisions D4 and D8.
-/
def Obligations.StepLeavesProgramAndConfiguration : Prop :=
  ∀ (n : Nat) (h : Hart n) (t : State), step ⟨n, h⟩ = .next t →
    ∃ k : Hart n, t = ⟨n, k⟩ ∧ k.prog = h.prog ∧ k.cfg = h.cfg ∧ ∀ a, k.prog.read a = h.prog.read a

/-! ## Registers and pc -/

/-- 10_state.md R12: `x0` reads zero in every state; a write to it has no effect. The discard is the spec's decision
D2 (general knowledge G3). -/
def Obligations.RegisterZeroReadsZeroAndDiscardsWrites : Prop :=
  ∀ (n : Nat) (h : Hart n) (v : BitVec n), h.readReg 0#5 = 0#n ∧ h.writeReg 0#5 v = h

/-- The register file: a register holds what was written to it, every other register what it held (00_scope.md R7,
10_state.md R11). The register file is the spec's decision D2. -/
def Obligations.RegisterReadAfterWrite : Prop :=
  ∀ (n : Nat) (h : Hart n) (i j : RegNum) (v : BitVec n), i ≠ 0#5 →
    (h.writeReg i v).readReg j = if j = i then v else h.readReg j

/-- 10_state.md R15: an instruction that completes adds 4 to `pc`, modulo `2^XLEN`; one that raises leaves it, the
outcome carrying it; a fetch needs an aligned `pc`; a completing instruction keeps it aligned. The spec's decisions D3
and D13. -/
def Obligations.PcAdvancesByFourOnCompletion : Prop :=
  ∀ (n : Nat) (h : Hart n) (i : Instr),
    (¬ Raises h i → ∃ t : Hart n, exec i ⟨n, h⟩ = .next ⟨n, t⟩ ∧ t.pc = h.pc + 4#n ∧
      t.pc.toNat = (h.pc.toNat + 4 % 2 ^ n) % 2 ^ n ∧
      (5 ≤ n → h.pc.toNat % 4 = 0 → t.pc.toNat % 4 = 0)) ∧
    (Raises h i → h.cfg.onTrap = .stop → exec i ⟨n, h⟩ = illegal h i) ∧
    (h.fetch ≠ none → h.pc.toNat % 4 = 0)

/-- What each of the six leaves unchanged when it completes: every register but `rd` (every register when `rd` is
`x0`), the configuration, every byte of the program, the model's counter of draws; and, where the access is not under
no law, every CSR but the one named and those execution modifies by itself, and the environment but for the bulb
(10_state.md R13, R18; 42_csr_access_effects.md R90; 20_memory.md R29). That an access under no law is set aside here
is notes/assumptions/4; what such an access keeps is `NonWritableBitsAreKept`. -/
def Obligations.FrameOfTheSixInstructions : Prop :=
  ∀ (n : Nat) (h t : Hart n) (i : Instr), ¬ Raises h i → exec i ⟨n, h⟩ = .next ⟨n, t⟩ →
    (∀ j, j ≠ rdOf i → t.readReg j = h.readReg j) ∧
    (rdOf i = 0#5 → t.x = h.x) ∧
    t.cfg = h.cfg ∧ (∀ k, t.prog.read k = h.prog.read k) ∧ t.draws = h.draws ∧
    ((h.cfg.entry (csrOf i)).onRead ≠ .free → (h.cfg.entry (csrOf i)).onWrite ≠ .free →
      (h.cfg.wf = true → ∀ b, b ≠ csrOf i → (h.cfg.entry b).implicit = .none → t.getCsr b = h.getCsr b) ∧
      (h.cfg.wf = true → writesCsr (opOf i) (srcOf i).field = false →
        (h.cfg.entry (csrOf i)).implicit = .none → t.getCsr (csrOf i) = h.getCsr (csrOf i)) ∧
      t.env.device = h.env.device ∧
      ((h.cfg.entry (csrOf i)).onRead = .none → (h.cfg.entry (csrOf i)).onWrite = .none → t.env = h.env))

/-! ## Each instruction completes, with the state its rule writes out -/

/-- CSRRW (40_csr_register_forms.md R65, pseudocode): the state when it does not raise. The order of the steps is the
spec's decision D13; the event is R49 (D22), its written value the one computed by the model's reading
(notes/assumptions/16), the empty record of a trap notes/assumptions/6. -/
def Obligations.CsrrwCompletesAsWrittenOut : Prop :=
  ∀ (n : Nat) (h : Hart n) (rd : RegNum) (a : CsrNum) (rs1 : RegNum),
    h.csrAccessible a = true → h.csrReadOnly a = false →
    exec (.csrrw rd a rs1) ⟨n, h⟩ = .next ⟨n,
      let m := h.readReg rs1
      let I := encode (.csrrw rd a rs1)
      if rd = 0#5 then
        { (h.csrWrite a m (ones n)).implicitUpdate I (some a) with
            pc := h.pc + 4#n, history := ⟨a, none, some m⟩ :: h.history, raised := none }
      else
        { (((h.csrRead a).2.csrWrite a m (ones n)).implicitUpdate I (some a)).writeReg rd (h.csrRead a).1 with
            pc := h.pc + 4#n, history := ⟨a, some (h.csrRead a).1, some m⟩ :: h.history, raised := none }⟩

/-- CSRRS (R66, pseudocode): the state when it does not raise. The order of the steps is the spec's decision D13; the
event is R49 (D22), its written value the one computed by the model's reading (notes/assumptions/16), the empty record
of a trap notes/assumptions/6. -/
def Obligations.CsrrsCompletesAsWrittenOut : Prop :=
  ∀ (n : Nat) (h : Hart n) (rd : RegNum) (a : CsrNum) (rs1 : RegNum),
    h.csrAccessible a = true → (rs1 ≠ 0#5 → h.csrReadOnly a = false) →
    exec (.csrrs rd a rs1) ⟨n, h⟩ = .next ⟨n,
      let m := h.readReg rs1
      let I := encode (.csrrs rd a rs1)
      let t := (h.csrRead a).1
      let S := (h.csrRead a).2
      if rs1 = 0#5 then
        { (S.implicitUpdate I none).writeReg rd t with
            pc := h.pc + 4#n, history := ⟨a, some t, none⟩ :: h.history, raised := none }
      else
        { ((S.csrWrite a (t ||| m) m).implicitUpdate I (some a)).writeReg rd t with
            pc := h.pc + 4#n, history := ⟨a, some t, some (t ||| m)⟩ :: h.history, raised := none }⟩

/-- CSRRC (R67, pseudocode): the state when it does not raise. The order of the steps is the spec's decision D13; the
event is R49 (D22), its written value the one computed by the model's reading (notes/assumptions/16), the empty record
of a trap notes/assumptions/6. -/
def Obligations.CsrrcCompletesAsWrittenOut : Prop :=
  ∀ (n : Nat) (h : Hart n) (rd : RegNum) (a : CsrNum) (rs1 : RegNum),
    h.csrAccessible a = true → (rs1 ≠ 0#5 → h.csrReadOnly a = false) →
    exec (.csrrc rd a rs1) ⟨n, h⟩ = .next ⟨n,
      let m := h.readReg rs1
      let I := encode (.csrrc rd a rs1)
      let t := (h.csrRead a).1
      let S := (h.csrRead a).2
      if rs1 = 0#5 then
        { (S.implicitUpdate I none).writeReg rd t with
            pc := h.pc + 4#n, history := ⟨a, some t, none⟩ :: h.history, raised := none }
      else
        { ((S.csrWrite a (t &&& ~~~m) m).implicitUpdate I (some a)).writeReg rd t with
            pc := h.pc + 4#n, history := ⟨a, some t, some (t &&& ~~~m)⟩ :: h.history, raised := none }⟩

/-- CSRRWI (41_csr_immediate_forms.md R77, pseudocode): the state when it does not raise. The order of the steps is
the spec's decision D13; the event is R49 (D22), its written value the one computed by the model's reading
(notes/assumptions/16), the empty record of a trap notes/assumptions/6. -/
def Obligations.CsrrwiCompletesAsWrittenOut : Prop :=
  ∀ (n : Nat) (h : Hart n) (rd : RegNum) (a : CsrNum) (uimm : Uimm),
    h.csrAccessible a = true → h.csrReadOnly a = false →
    exec (.csrrwi rd a uimm) ⟨n, h⟩ = .next ⟨n,
      let m : BitVec n := uimm.setWidth n
      let I := encode (.csrrwi rd a uimm)
      if rd = 0#5 then
        { (h.csrWrite a m (ones n)).implicitUpdate I (some a) with
            pc := h.pc + 4#n, history := ⟨a, none, some m⟩ :: h.history, raised := none }
      else
        { (((h.csrRead a).2.csrWrite a m (ones n)).implicitUpdate I (some a)).writeReg rd (h.csrRead a).1 with
            pc := h.pc + 4#n, history := ⟨a, some (h.csrRead a).1, some m⟩ :: h.history, raised := none }⟩

/-- CSRRSI (R78, pseudocode): the state when it does not raise. The order of the steps is the spec's decision D13; the
event is R49 (D22), its written value the one computed by the model's reading (notes/assumptions/16), the empty record
of a trap notes/assumptions/6. -/
def Obligations.CsrrsiCompletesAsWrittenOut : Prop :=
  ∀ (n : Nat) (h : Hart n) (rd : RegNum) (a : CsrNum) (uimm : Uimm),
    h.csrAccessible a = true → (uimm ≠ 0#5 → h.csrReadOnly a = false) →
    exec (.csrrsi rd a uimm) ⟨n, h⟩ = .next ⟨n,
      let m : BitVec n := uimm.setWidth n
      let I := encode (.csrrsi rd a uimm)
      let t := (h.csrRead a).1
      let S := (h.csrRead a).2
      if uimm = 0#5 then
        { (S.implicitUpdate I none).writeReg rd t with
            pc := h.pc + 4#n, history := ⟨a, some t, none⟩ :: h.history, raised := none }
      else
        { ((S.csrWrite a (t ||| m) m).implicitUpdate I (some a)).writeReg rd t with
            pc := h.pc + 4#n, history := ⟨a, some t, some (t ||| m)⟩ :: h.history, raised := none }⟩

/-- CSRRCI (R79, pseudocode): the state when it does not raise. The order of the steps is the spec's decision D13; the
event is R49 (D22), its written value the one computed by the model's reading (notes/assumptions/16), the empty record
of a trap notes/assumptions/6. -/
def Obligations.CsrrciCompletesAsWrittenOut : Prop :=
  ∀ (n : Nat) (h : Hart n) (rd : RegNum) (a : CsrNum) (uimm : Uimm),
    h.csrAccessible a = true → (uimm ≠ 0#5 → h.csrReadOnly a = false) →
    exec (.csrrci rd a uimm) ⟨n, h⟩ = .next ⟨n,
      let m : BitVec n := uimm.setWidth n
      let I := encode (.csrrci rd a uimm)
      let t := (h.csrRead a).1
      let S := (h.csrRead a).2
      if uimm = 0#5 then
        { (S.implicitUpdate I none).writeReg rd t with
            pc := h.pc + 4#n, history := ⟨a, some t, none⟩ :: h.history, raised := none }
      else
        { ((S.csrWrite a (t &&& ~~~m) m).implicitUpdate I (some a)).writeReg rd t with
            pc := h.pc + 4#n, history := ⟨a, some t, some (t &&& ~~~m)⟩ :: h.history, raised := none }⟩

/-! ## Plain CSRs -/

/-- 10_state.md R19: the read and the write of a plain CSR, and what the write gives for the pairs `(v, em)` the
instructions produce; so for every CSR whose accesses have no side effect, whatever else it is. A plain CSR is the
spec's own construction (decision D18). -/
def Obligations.PlainCsrReadAndWrite : Prop :=
  ∀ (n : Nat) (h : Hart n) (a : CsrNum),
    let wm := h.csrMask a
    ((h.cfg.entry a).onRead = .none → clip (h.cfg.entry a).width (h.getCsr a) = h.getCsr a →
      h.csrRead a = (h.getCsr a, h)) ∧
    ((h.cfg.entry a).onWrite = .none →
      (∀ v em, h.csrWrite a v em = h.setCsr a ((h.getCsr a &&& ~~~(em &&& wm)) ||| (v &&& em &&& wm))) ∧
      (∀ v, (h.csrWrite a v (ones n)).getCsr a = (h.getCsr a &&& ~~~wm) ||| (v &&& wm)) ∧
      (∀ m, (h.csrWrite a (h.getCsr a ||| m) m).getCsr a = h.getCsr a ||| (m &&& wm)) ∧
      (∀ m, (h.csrWrite a (h.getCsr a &&& ~~~m) m).getCsr a = h.getCsr a &&& ~~~(m &&& wm)))

/-- On a plain CSR, and on every other whose access is not under no law (the light bulb, a counter it writes, a CSR the
environment affects, a strongly ordered one), each of the six that does not raise completes, with the new value and
the value in `rd` of the table of 95_test_vectors.md, "Laws a model can check over all inputs"
(40_csr_register_forms.md R72, R75). A plain CSR is the spec's own construction (decision D18). -/
def Obligations.SixInstructionsOnAPlainCsr : Prop :=
  ∀ (n : Nat) (h : Hart n) (i : Instr),
    h.cfg.wf = true → ¬ Raises h i →
    (h.cfg.entry (csrOf i)).onRead ≠ .free → (h.cfg.entry (csrOf i)).onWrite ≠ .free →
    (writesCsr (opOf i) (srcOf i).field = true ∨ (h.cfg.entry (csrOf i)).implicit = .none) →
    ∃ t : Hart n, exec i ⟨n, h⟩ = .next ⟨n, t⟩ ∧
      (let c := h.getCsr (csrOf i)
       let m := (srcOf i).value h
       let wm := h.csrMask (csrOf i)
       t.getCsr (csrOf i) =
        match opOf i with
        | .write => (c &&& ~~~wm) ||| (m &&& wm)
        | .set => if (srcOf i).field = 0#5 then c else c ||| (m &&& wm)
        | .clear => if (srcOf i).field = 0#5 then c else c &&& ~~~(m &&& wm)) ∧
      (rdOf i ≠ 0#5 → t.readReg (rdOf i) = clip (h.cfg.entry (csrOf i)).width (h.getCsr (csrOf i)))

/-- Two instructions in a row on a plain CSR: set then clear, clear then set, and swap twice (40_csr_register_forms.md
R72; 95_test_vectors.md, the laws under its table). A plain CSR is the spec's own construction (decision D18). -/
def Obligations.SetClearAndSwapInSequence : Prop :=
  ∀ (n : Nat) (h : Hart n) (a : CsrNum) (w : Nat) (wm : BitVec n) (r : RegNum),
    h.cfg.wf = true → h.cfg.entry a = CsrEntry.plain w wm → r ≠ 0#5 →
    (∃ t u : Hart n, exec (.csrrs 0#5 a r) ⟨n, h⟩ = .next ⟨n, t⟩ ∧ exec (.csrrc 0#5 a r) ⟨n, t⟩ = .next ⟨n, u⟩ ∧
      u.getCsr a = h.getCsr a &&& ~~~(h.readReg r &&& wm)) ∧
    (∃ t u : Hart n, exec (.csrrc 0#5 a r) ⟨n, h⟩ = .next ⟨n, t⟩ ∧ exec (.csrrs 0#5 a r) ⟨n, t⟩ = .next ⟨n, u⟩ ∧
      u.getCsr a = h.getCsr a ||| (h.readReg r &&& wm)) ∧
    (w = n → wm = ones n →
      ∃ t u : Hart n, exec (.csrrw r a r) ⟨n, h⟩ = .next ⟨n, t⟩ ∧ exec (.csrrw r a r) ⟨n, t⟩ = .next ⟨n, u⟩ ∧
        u.getCsr a = h.getCsr a ∧ u.readReg r = h.readReg r)

/-! ## The `x0` and zero cases -/

/-- 40_csr_register_forms.md R68: CSRRS and CSRRC with `rs1 = x0` read and do not write, on a read-only CSR too; both
always read, whatever `rs1` and `rd`, and the read's side effects are in the state the rest of the instruction starts
from. The order of the steps is the spec's decision D13, `pc + 4` D3 (notes/assumptions/11), the event R49 and D22
(notes/assumptions/16), the empty record of a trap notes/assumptions/6. -/
def Obligations.SetAndClearWithX0OnlyRead : Prop :=
  (∀ (n : Nat) (h : Hart n) (rd : RegNum) (a : CsrNum), h.csrAccessible a = true →
    exec (.csrrs rd a 0#5) ⟨n, h⟩ = .next ⟨n,
      { ((h.csrRead a).2.implicitUpdate (encode (.csrrs rd a 0#5)) none).writeReg rd (h.csrRead a).1 with
          pc := h.pc + 4#n, history := ⟨a, some (h.csrRead a).1, none⟩ :: h.history, raised := none }⟩ ∧
    exec (.csrrc rd a 0#5) ⟨n, h⟩ = .next ⟨n,
      { ((h.csrRead a).2.implicitUpdate (encode (.csrrc rd a 0#5)) none).writeReg rd (h.csrRead a).1 with
          pc := h.pc + 4#n, history := ⟨a, some (h.csrRead a).1, none⟩ :: h.history, raised := none }⟩) ∧
  (∀ (n : Nat) (h : Hart n) (rd : RegNum) (a : CsrNum) (rs1 : RegNum) (i : Instr),
    (i = .csrrs rd a rs1 ∨ i = .csrrc rd a rs1) → ¬ Raises h i →
    ∃ (t : Hart n) (wr : Option (BitVec n)), exec i ⟨n, h⟩ = .next ⟨n, t⟩ ∧
      t.history = ⟨a, some (h.csrRead a).1, wr⟩ :: h.history ∧
      (rd ≠ 0#5 → t.readReg rd = (h.csrRead a).1) ∧
      (let m := (srcOf i).value h
       let S := (h.csrRead a).2
       let X := if rs1 = 0#5 then S else S.csrWrite a (newValue (opOf i) (h.csrRead a).1 m) m
       t.env = X.env ∧ t.csr = (X.implicitUpdate (encode i) (if rs1 = 0#5 then none else some a)).csr))

/-- 41_csr_immediate_forms.md R81: CSRRSI and CSRRCI read the CSR for every `uimm`, zero included, and every `rd`,
`x0` included, and the read's side effects are in the state the rest of the instruction starts from. That the CSR is
read is said through the event history (R49, decision D22; notes/assumptions/16). The order of the steps is D13. -/
def Obligations.ImmediateSetAndClearAlwaysRead : Prop :=
  ∀ (n : Nat) (h : Hart n) (rd : RegNum) (a : CsrNum) (uimm : Uimm) (i : Instr),
    (i = .csrrsi rd a uimm ∨ i = .csrrci rd a uimm) → ¬ Raises h i →
    ∃ (t : Hart n) (wr : Option (BitVec n)), exec i ⟨n, h⟩ = .next ⟨n, t⟩ ∧
      t.history = ⟨a, some (h.csrRead a).1, wr⟩ :: h.history ∧
      (rd ≠ 0#5 → t.readReg rd = (h.csrRead a).1) ∧
      (let m := (srcOf i).value h
       let S := (h.csrRead a).2
       let X := if uimm = 0#5 then S else S.csrWrite a (newValue (opOf i) (h.csrRead a).1 m) m
       t.env = X.env ∧ t.csr = (X.implicitUpdate (encode i) (if uimm = 0#5 then none else some a)).csr)

/-- 40_csr_register_forms.md R69: a zero mask in a register other than `x0` is a write of the unmodified value: it has
the write's side effects, it suppresses the implicit update of that CSR, it stores what is there on a plain CSR, and
it raises on a read-only CSR. The order of the steps is the spec's decision D13, `pc + 4` D3, the event D22
(notes/assumptions/16), the empty record of a trap notes/assumptions/6, the outcome on a read-only CSR D12 and D14
(notes/assumptions/6, 13). -/
def Obligations.ZeroMaskInARegisterStillWrites : Prop :=
  ∀ (n : Nat) (h : Hart n) (rd : RegNum) (a : CsrNum) (rs1 : RegNum) (i : Instr),
    (i = .csrrs rd a rs1 ∨ i = .csrrc rd a rs1) → rs1 ≠ 0#5 → h.readReg rs1 = 0#n → h.csrAccessible a = true →
    (h.csrReadOnly a = false →
      exec i ⟨n, h⟩ = .next ⟨n,
        { (((h.csrRead a).2.csrWrite a (h.csrRead a).1 (0#n)).implicitUpdate (encode i) (some a)).writeReg rd
            (h.csrRead a).1 with
            pc := h.pc + 4#n, history := ⟨a, some (h.csrRead a).1, some (h.csrRead a).1⟩ :: h.history, raised := none }⟩ ∧
      ((h.cfg.entry a).onWrite = .none → (h.csrWrite a (h.csrRead a).1 (0#n)).getCsr a = h.getCsr a)) ∧
    (h.csrReadOnly a = true → h.cfg.onTrap = .stop → exec i ⟨n, h⟩ = illegal h i)

/-- 40_csr_register_forms.md R70: CSRRW with `rs1 = x0` writes zero; bits that are not writable are kept; a read-only
CSR raises. That bits are kept is the spec's decision D18, the outcome on a read-only CSR D12 and D14
(notes/assumptions/6, 13); the write is said through the event history (R49, D22; notes/assumptions/16). -/
def Obligations.CsrrwWithX0WritesZero : Prop :=
  ∀ (n : Nat) (h : Hart n) (rd : RegNum) (a : CsrNum), h.csrAccessible a = true →
    (h.csrReadOnly a = false →
      ∃ (t : Hart n) (r : Option (BitVec n)), exec (.csrrw rd a 0#5) ⟨n, h⟩ = .next ⟨n, t⟩ ∧
        t.history = ⟨a, r, some (0#n)⟩ :: h.history ∧
        (h.cfg.wf = true → Ordinary h a → t.getCsr a = h.getCsr a &&& ~~~(h.csrMask a))) ∧
    (h.csrReadOnly a = true → h.cfg.onTrap = .stop → exec (.csrrw rd a 0#5) ⟨n, h⟩ = illegal h (.csrrw rd a 0#5))

/-- 40_csr_register_forms.md R71: with `rd = rs1` the CSR takes, or is masked by, the register's old value, and the
register then takes the CSR's; for CSRRW an exact swap. On plain CSRs, the spec's own construction (decision D18). -/
def Obligations.SameRegisterUsesInitialValue : Prop :=
  (∀ (n : Nat) (h : Hart n) (a : CsrNum) (r : RegNum),
    h.cfg.wf = true → h.cfg.entry a = CsrEntry.plain n (ones n) → r ≠ 0#5 →
    (∃ t : Hart n, exec (.csrrw r a r) ⟨n, h⟩ = .next ⟨n, t⟩ ∧
      t.getCsr a = h.readReg r ∧ t.readReg r = h.getCsr a) ∧
    (∃ t : Hart n, exec (.csrrs r a r) ⟨n, h⟩ = .next ⟨n, t⟩ ∧
      t.getCsr a = h.getCsr a ||| h.readReg r ∧ t.readReg r = h.getCsr a) ∧
    (∃ t : Hart n, exec (.csrrc r a r) ⟨n, h⟩ = .next ⟨n, t⟩ ∧
      t.getCsr a = h.getCsr a &&& ~~~(h.readReg r) ∧ t.readReg r = h.getCsr a)) ∧
  encode (.csrrw 5#5 0x340#12 5#5) = 0x340292F3#32

/-- 40_csr_register_forms.md R74: `rd = x0` in CSRRS and CSRRC (and their immediate forms) drops the value and nothing
else: the read's side effects occur, and all but the registers is as with another `rd`, an implicit update under no law,
which may depend on the word, set aside; only in CSRRW and CSRRWI does it suppress the read. Read and write are said
through the event history (R49, decision D22; notes/assumptions/16). -/
def Obligations.DestinationX0 : Prop :=
  (∀ (n : Nat) (h : Hart n) (a : CsrNum) (r : BitVec 5),
    (∀ i, (i = .csrrs 0#5 a r ∨ i = .csrrc 0#5 a r ∨ i = .csrrsi 0#5 a r ∨ i = .csrrci 0#5 a r) → ¬ Raises h i →
      ∃ (t : Hart n) (wr : Option (BitVec n)), exec i ⟨n, h⟩ = .next ⟨n, t⟩ ∧
        t.history = ⟨a, some (h.csrRead a).1, wr⟩ :: h.history ∧ t.x = h.x ∧
        (r = 0#5 → t.env = (h.csrRead a).2.env)) ∧
    (∀ i, (i = .csrrw 0#5 a r ∨ i = .csrrwi 0#5 a r) → ¬ Raises h i →
      ∃ (t : Hart n) (v : BitVec n), exec i ⟨n, h⟩ = .next ⟨n, t⟩ ∧
        t.history = ⟨a, none, some v⟩ :: h.history ∧ t.x = h.x ∧
        t.env = (h.csrWrite a v (ones n)).env)) ∧
  (∀ (n : Nat) (h : Hart n) (i j : Instr), h.cfg.wf = true → (∀ b, (h.cfg.entry b).implicit ≠ .free) →
    opOf i ≠ .write → opOf j = opOf i → srcOf j = srcOf i → csrOf j = csrOf i → rdOf i = 0#5 → ¬ Raises h i →
    ∃ t u : Hart n, exec i ⟨n, h⟩ = .next ⟨n, t⟩ ∧ exec j ⟨n, h⟩ = .next ⟨n, u⟩ ∧ t = { u with x := h.x })

/-! ## Immediate forms -/

/-- An immediate form is its register form with the operand `zext(uimm)` and the test on the same bits
(41_csr_immediate_forms.md R76); an implicit update under no law, which may depend on the word, set aside. -/
def Obligations.ImmediateFormMatchesRegisterForm : Prop :=
  ∀ (n : Nat) (h : Hart n) (rd : RegNum) (a : CsrNum) (r : RegNum) (u : Uimm),
    h.readReg r = u.setWidth n → (r = 0#5 ↔ u = 0#5) →
    h.cfg.wf = true → (∀ b, (h.cfg.entry b).implicit ≠ .free) →
    (¬ Raises h (.csrrw rd a r) → ∃ t : Hart n,
      exec (.csrrw rd a r) ⟨n, h⟩ = .next ⟨n, t⟩ ∧ exec (.csrrwi rd a u) ⟨n, h⟩ = .next ⟨n, t⟩) ∧
    (¬ Raises h (.csrrs rd a r) → ∃ t : Hart n,
      exec (.csrrs rd a r) ⟨n, h⟩ = .next ⟨n, t⟩ ∧ exec (.csrrsi rd a u) ⟨n, h⟩ = .next ⟨n, t⟩) ∧
    (¬ Raises h (.csrrc rd a r) → ∃ t : Hart n,
      exec (.csrrc rd a r) ⟨n, h⟩ = .next ⟨n, t⟩ ∧ exec (.csrrci rd a u) ⟨n, h⟩ = .next ⟨n, t⟩)

/-- No immediate form reads an integer register: two harts that differ in their registers alone end with the same
CSRs, environment, pc and history (41_csr_immediate_forms.md R76, 10_state.md R13). The accesses are those the spec
gives, none under no law (notes/assumptions/4). -/
def Obligations.ImmediateFormsReadNoRegister : Prop :=
  ∀ (n : Nat) (h : Hart n) (x : Vector (BitVec n) 31) (rd : RegNum) (a : CsrNum) (u : Uimm) (i : Instr),
    (i = .csrrwi rd a u ∨ i = .csrrsi rd a u ∨ i = .csrrci rd a u) →
    h.cfg.wf = true → Cfg.settled h.cfg → ¬ Raises h i →
    ∃ t k : Hart n, exec i ⟨n, h⟩ = .next ⟨n, t⟩ ∧ exec i ⟨n, { h with x := x }⟩ = .next ⟨n, k⟩ ∧
      k.csr = t.csr ∧ k.env = t.env ∧ k.pc = t.pc ∧ k.history = t.history ∧
      (rd ≠ 0#5 → k.readReg rd = t.readReg rd)

/-! ## When a CSR is read and written, and what then happens -/

/-- 42_csr_access_effects.md R82: the table, row by row, as the accesses an instruction that completes leaves in the
history, which is R49's (decision D22; notes/assumptions/16). -/
def Obligations.TableOfReadAndWriteConditions : Prop :=
  ∀ (n : Nat) (h : Hart n) (i : Instr), ¬ Raises h i →
    ∃ (t : Hart n) (x : CsrAccess n), exec i ⟨n, h⟩ = .next ⟨n, t⟩ ∧ t.history = x :: h.history ∧
      x.num = csrOf i ∧
      (x.read.isSome, x.written.isSome) =
        match i with
        | .csrrw rd _ _ => (decide (rd ≠ 0#5), true)
        | .csrrs _ _ rs1 => (true, decide (rs1 ≠ 0#5))
        | .csrrc _ _ rs1 => (true, decide (rs1 ≠ 0#5))
        | .csrrwi rd _ _ => (decide (rd ≠ 0#5), true)
        | .csrrsi _ _ uimm => (true, decide (uimm ≠ 0#5))
        | .csrrci _ _ uimm => (true, decide (uimm ≠ 0#5))

/-- The light bulb (42_csr_access_effects.md R88): writing an odd value turns it off, reading turns it on, writing the
same odd value again, which changes no CSR, turns it off; writing an even value has no effect on it. That the value is
stored is the spec's own choice for the example. -/
def Obligations.LightBulbSequence : Prop :=
  ∀ (n : Nat) (h : Hart n) (a : CsrNum) (r rd : RegNum),
    h.cfg.wf = true →
    h.cfg.entry a = { CsrEntry.plain n (ones n) with onRead := .bulbOn, onWrite := .bulbOffWhenOdd } →
    r ≠ 0#5 → rd ≠ r →
    ((h.readReg r).getLsbD 0 = true →
      ∃ t u v : Hart n,
        exec (.csrrw 0#5 a r) ⟨n, h⟩ = .next ⟨n, t⟩ ∧ t.env.bulb = false ∧ t.getCsr a = h.readReg r ∧
        exec (.csrrs rd a 0#5) ⟨n, t⟩ = .next ⟨n, u⟩ ∧ u.env.bulb = true ∧ u.getCsr a = h.readReg r ∧
        exec (.csrrw 0#5 a r) ⟨n, u⟩ = .next ⟨n, v⟩ ∧ v.env.bulb = false ∧ v.getCsr a = u.getCsr a) ∧
    ((h.readReg r).getLsbD 0 = false →
      ∃ t : Hart n, exec (.csrrw 0#5 a r) ⟨n, h⟩ = .next ⟨n, t⟩ ∧ t.env.bulb = h.env.bulb)

/-- 42_csr_access_effects.md R91: a retired-instruction counter `W` bits wide adds one modulo `2^W`, unless it is in
`skip`; nothing else of the state changes, where no other CSR is modified by execution. The increment by one and the
wrap are the spec's decision D24 (general knowledge G9). -/
def Obligations.CounterAddsOneModuloItsWidth : Prop :=
  ∀ (n : Nat) (h : Hart n) (word : InstrWord) (skip : Option CsrNum) (c : CsrNum),
    h.cfg.wf = true → (h.cfg.entry c).implicit = .count →
    (skip = some c → (h.implicitUpdate word skip).getCsr c = h.getCsr c) ∧
    (skip ≠ some c → ((h.implicitUpdate word skip).getCsr c).toNat =
      ((h.getCsr c).toNat + 1) % 2 ^ (h.cfg.entry c).width) ∧
    (∀ b, (h.cfg.entry b).implicit = .none → (h.implicitUpdate word skip).getCsr b = h.getCsr b) ∧
    (h.implicitUpdate word skip).x = h.x ∧ (h.implicitUpdate word skip).pc = h.pc ∧
    (h.implicitUpdate word skip).env = h.env

/-- `ImplicitUpdate` changes no register, not the `pc`, and no CSR in `skip`, whatever rule a CSR has; nor the environment,
the program or the configuration (42_csr_access_effects.md R90). -/
def Obligations.ImplicitUpdateLaw : Prop :=
  ∀ (n : Nat) (h : Hart n) (word : InstrWord) (skip : Option CsrNum),
    (h.implicitUpdate word skip).x = h.x ∧ (h.implicitUpdate word skip).pc = h.pc ∧
    (h.implicitUpdate word skip).env = h.env ∧ (h.implicitUpdate word skip).prog = h.prog ∧
    (h.implicitUpdate word skip).cfg = h.cfg ∧ (h.implicitUpdate word skip).history = h.history ∧
    (h.cfg.wf = true → ∀ a, skip = some a → (h.implicitUpdate word skip).getCsr a = h.getCsr a)

/-- 42_csr_access_effects.md R92: an instruction that reads a CSR execution modifies gets the value prior to it; two
reads in a row of a counter give `n` and `n + 1`. The count by one is the spec's decision D24. -/
def Obligations.CounterReadGivesPriorValue : Prop :=
  ∀ (n : Nat) (h : Hart n) (c : CsrNum), h.cfg.wf = true → (h.cfg.entry c).implicit = .count → Ordinary h c →
    (∀ i, csrOf i = c → readsCsr (opOf i) (rdOf i) = true → rdOf i ≠ 0#5 →
      ∃ t : Hart n, exec i ⟨n, h⟩ = .next ⟨n, t⟩ ∧
        t.readReg (rdOf i) = clip (h.cfg.entry c).width (h.getCsr c)) ∧
    ((h.cfg.entry c).access = .always → ∀ r1 r2 : RegNum, r1 ≠ 0#5 → r2 ≠ 0#5 →
      ∃ t u : Hart n, exec (.csrrs r1 c 0#5) ⟨n, h⟩ = .next ⟨n, t⟩ ∧ exec (.csrrs r2 c 0#5) ⟨n, t⟩ = .next ⟨n, u⟩ ∧
        t.readReg r1 = clip (h.cfg.entry c).width (h.getCsr c) ∧
        (u.readReg r2).toNat = ((t.readReg r1).toNat + 1) % 2 ^ (h.cfg.entry c).width)

/-- 42_csr_access_effects.md R93: a write to a counter is done instead of the increment; the five consequences. The
five consequences are the spec's derivations; the count by one is its decision D24. -/
def Obligations.CounterWriteReplacesIncrement : Prop :=
  ∀ (n : Nat) (h : Hart n) (c : CsrNum), h.cfg.wf = true →
    h.cfg.entry c = { CsrEntry.plain n (ones n) with implicit := .count } →
    (∀ (rs1 r2 : RegNum), r2 ≠ 0#5 →
      ∃ t u : Hart n, exec (.csrrw 0#5 c rs1) ⟨n, h⟩ = .next ⟨n, t⟩ ∧ t.getCsr c = h.readReg rs1 ∧
        exec (.csrrs r2 c 0#5) ⟨n, t⟩ = .next ⟨n, u⟩ ∧ u.readReg r2 = h.readReg rs1) ∧
    (∀ rd, ∃ t : Hart n, exec (.csrrs rd c 0#5) ⟨n, h⟩ = .next ⟨n, t⟩ ∧ t.getCsr c = h.getCsr c + 1#n) ∧
    (∀ rd rs1, rs1 ≠ 0#5 → h.readReg rs1 = 0#n →
      ∃ t : Hart n, exec (.csrrs rd c rs1) ⟨n, h⟩ = .next ⟨n, t⟩ ∧ t.getCsr c = h.getCsr c) ∧
    (∀ rd, ∃ t : Hart n, exec (.csrrsi rd c 0#5) ⟨n, h⟩ = .next ⟨n, t⟩ ∧ t.getCsr c = h.getCsr c + 1#n) ∧
    (∀ i, csrOf i ≠ c → ¬ Raises h i → (h.cfg.entry (csrOf i)).onRead ≠ .free →
      (h.cfg.entry (csrOf i)).onWrite ≠ .free →
      ∃ t : Hart n, exec i ⟨n, h⟩ = .next ⟨n, t⟩ ∧ t.getCsr c = h.getCsr c + 1#n)

/-- 20_memory.md R38: an explicit read returns, in `rd`, the CSR's state before the instruction; an explicit write overrides
whatever execution does to the same CSR by itself. Whether there was a read or a write, and the values, are said through
the event history (R49, decision D22; notes/assumptions/16), the value written being the one computed. -/
def Obligations.ExplicitWriteOverridesImplicit : Prop :=
  ∀ (n : Nat) (h : Hart n) (i : Instr), h.cfg.wf = true → ¬ Raises h i →
    ∃ (t : Hart n) (x : CsrAccess n), exec i ⟨n, h⟩ = .next ⟨n, t⟩ ∧ t.history = x :: h.history ∧
      (∀ v, x.read = some v → v = (h.csrRead (csrOf i)).1 ∧ (rdOf i ≠ 0#5 → t.readReg (rdOf i) = v)) ∧
      (∀ v, x.written = some v →
        t.getCsr (csrOf i) =
          ((if x.read.isSome then (h.csrRead (csrOf i)).2 else h).csrWrite (csrOf i) v
            (explicitMask (opOf i) ((srcOf i).value h))).getCsr (csrOf i))

/-- 10_state.md R20: a bit that is not writable is changed by no access of a CSR instruction, whatever CSR it names and
whatever the side effects; only execution itself may modify it, and not where the instruction writes that CSR. That
execution itself may is notes/assumptions/14, that side effects under no law keep such bits notes/assumptions/4, both the
model's readings. -/
def Obligations.NonWritableBitsAreKept : Prop :=
  ∀ (n : Nat) (h : Hart n) (i : Instr), h.cfg.wf = true → ¬ Raises h i →
    ∃ t : Hart n, exec i ⟨n, h⟩ = .next ⟨n, t⟩ ∧
      ∀ (b : CsrNum) (k : Nat),
        ((h.cfg.entry b).implicit = .none ∨ (b = csrOf i ∧ writesCsr (opOf i) (srcOf i).field = true)) →
        (h.cfg.entry b).writable.getLsbD k = false →
        (t.getCsr b).getLsbD k = (h.getCsr b).getLsbD k

/-- 10_state.md R21: an instruction that writes a read-only CSR raises, one that only reads it does not; a CSR with no
writable bit is another thing: writing it is legal and changes nothing. The second half is the spec's derivation; the
outcome is its decisions D12, D14. -/
def Obligations.ReadOnlyIsNotNoWritableBit : Prop :=
  ∀ (n : Nat) (h : Hart n) (i : Instr), h.csrAccessible (csrOf i) = true →
    (h.csrReadOnly (csrOf i) = true → writesCsr (opOf i) (srcOf i).field = true → h.cfg.onTrap = .stop →
      exec i ⟨n, h⟩ = illegal h i) ∧
    (h.csrReadOnly (csrOf i) = true → writesCsr (opOf i) (srcOf i).field = false →
      ∃ t : Hart n, exec i ⟨n, h⟩ = .next ⟨n, t⟩) ∧
    (h.csrReadOnly (csrOf i) = false → h.cfg.wf = true → (h.cfg.entry (csrOf i)).writable = 0#n →
      (h.cfg.entry (csrOf i)).implicit = .none →
      ∃ t : Hart n, exec i ⟨n, h⟩ = .next ⟨n, t⟩ ∧ t.getCsr (csrOf i) = h.getCsr (csrOf i))

/-- 10_state.md R17: no CSR is wider than `XLEN`, and the bits of a value read from the CSR's width up are zero, in
`rd`. That no CSR is wider is the spec's decision D25. -/
def Obligations.ReadIsZeroExtendedFromTheWidth : Prop :=
  ∀ (n : Nat) (h : Hart n) (i : Instr), h.cfg.wf = true → ¬ Raises h i →
    (h.cfg.entry (csrOf i)).width ≤ n ∧
    ∃ t : Hart n, exec i ⟨n, h⟩ = .next ⟨n, t⟩ ∧
      (readsCsr (opOf i) (rdOf i) = true → rdOf i ≠ 0#5 →
        ∀ k, (h.cfg.entry (csrOf i)).width ≤ k → (t.readReg (rdOf i)).getLsbD k = false)

/-! ## Exceptions -/

/-- 60_exceptions.md R102: the list, for an accessible read-only CSR. The positive half is the spec's derivation
(decision D12). The outcome of a raised exception is D14 (notes/assumptions/6, 13); that the read is performed is said
through the event history (R49, D22; notes/assumptions/16). -/
def Obligations.WritingAReadOnlyCsrRaises : Prop :=
  ∀ (n : Nat) (h : Hart n) (rd : RegNum) (a : CsrNum) (r : BitVec 5),
    h.csrAccessible a = true → h.csrReadOnly a = true → h.cfg.onTrap = .stop →
    exec (.csrrw rd a r) ⟨n, h⟩ = illegal h (.csrrw rd a r) ∧
    exec (.csrrwi rd a r) ⟨n, h⟩ = illegal h (.csrrwi rd a r) ∧
    (r ≠ 0#5 →
      exec (.csrrs rd a r) ⟨n, h⟩ = illegal h (.csrrs rd a r) ∧
      exec (.csrrc rd a r) ⟨n, h⟩ = illegal h (.csrrc rd a r) ∧
      exec (.csrrsi rd a r) ⟨n, h⟩ = illegal h (.csrrsi rd a r) ∧
      exec (.csrrci rd a r) ⟨n, h⟩ = illegal h (.csrrci rd a r)) ∧
    (∀ i, (i = .csrrs rd a 0#5 ∨ i = .csrrc rd a 0#5 ∨ i = .csrrsi rd a 0#5 ∨ i = .csrrci rd a 0#5) →
      ∃ t : Hart n, exec i ⟨n, h⟩ = .next ⟨n, t⟩ ∧
        t.history = ⟨a, some (h.csrRead a).1, none⟩ :: h.history)

/-- 60_exceptions.md R103: every form of every instruction raises on a CSR that is not accessible. The spec's decision
D10. -/
def Obligations.InaccessibleCsrRaises : Prop :=
  ∀ (n : Nat) (h : Hart n) (i : Instr), h.csrAccessible (csrOf i) = false → h.cfg.onTrap = .stop →
    exec i ⟨n, h⟩ = .fault (.trap .illegalInstruction h.pc.toNat (encode i))

/-- 60_exceptions.md R105: the six raise no other exception: each completes, or raises illegal instruction for one of
the two reasons, and nothing is refused. The spec's derivation, from its decisions D10 and D12. -/
def Obligations.OnlyIllegalInstructionIsRaised : Prop :=
  ∀ (n : Nat) (h : Hart n) (i : Instr), h.cfg.onTrap = .stop →
    ((∃ t : Hart n, exec i ⟨n, h⟩ = .next ⟨n, t⟩) ∧ ¬ Raises h i) ∨
    (exec i ⟨n, h⟩ = illegal h i ∧ Raises h i)

/-- What a raised exception does (60_exceptions.md R104, R108): by default the outcome `Trap`; where `TrapEntry` is given,
the state it gives, whatever that is: registers, pc and environment are the free value's, no parameter, history or
counter of draws changes, and the state records what was raised, as a completed instruction's records nothing. The
spec's decision D14; how `TrapEntry` is taken is notes/assumptions/6. -/
def Obligations.RaisedExceptionTakesTrapEntry : Prop :=
  ∀ (n : Nat) (h : Hart n) (i : Instr),
    (Raises h i →
      (h.cfg.onTrap = .stop → exec i ⟨n, h⟩ = illegal h i) ∧
      (h.cfg.onTrap = .enter →
        ∃ t : Hart n, exec i ⟨n, h⟩ = .next ⟨n, t⟩ ∧
          t.x = (Config.trapEntry .illegalInstruction (encode i) h.toArch).x ∧
          t.pc = (Config.trapEntry .illegalInstruction (encode i) h.toArch).pc ∧
          t.env = (Config.trapEntry .illegalInstruction (encode i) h.toArch).env ∧
          t.cfg = h.cfg ∧ t.prog = h.prog ∧ t.history = h.history ∧ t.draws = h.draws ∧
          t.raised = some ⟨.illegalInstruction, h.pc.toNat, encode i⟩)) ∧
    (¬ Raises h i → ∃ t : Hart n, exec i ⟨n, h⟩ = .next ⟨n, t⟩ ∧ t.raised = none)

/-! ## The environment and other observers -/

/-- 10_state.md R24: the environment's step changes the environment and environment-affected CSRs alone, and is empty
where there is no such CSR. The spec's decisions D16 and D23; the one free move is notes/assumptions/5. -/
def Obligations.EnvironmentChangesOnlyMarkedCsrs : Prop :=
  ∀ (n : Nat) (h : Hart n), h.cfg.wf = true →
    h.envStep.x = h.x ∧ h.envStep.pc = h.pc ∧ h.envStep.cfg = h.cfg ∧ h.envStep.prog = h.prog ∧
    (∀ b, (h.cfg.entry b).envAffected = false → h.envStep.getCsr b = h.getCsr b) ∧
    ((∀ b, (h.cfg.entry b).envAffected = false) → h.envStep = h)

/-- 20_memory.md R42: a CSR read is device input, a CSR write device output; an instruction that does both makes one
access of each class. The second clause is the spec's derivation. The accesses are those of the event history (R49,
decision D22; notes/assumptions/16). -/
def Obligations.AccessClassesForFence : Prop :=
  ∀ (n : Nat) (h : Hart n) (i : Instr), ¬ Raises h i →
    ∃ (t : Hart n) (x : CsrAccess n), exec i ⟨n, h⟩ = .next ⟨n, t⟩ ∧ t.history = x :: h.history ∧
      (x.events h.history.length).map (fun e => e.cls) =
        (if readsCsr (opOf i) (rdOf i) = true then [.deviceInput] else []) ++
        (if writesCsr (opOf i) (srcOf i).field = true then [.deviceOutput] else [])

/-- 20_memory.md R49: each access that happens is one event, with the number and the value read or written, both of
the same instruction; accesses that do not happen leave none. The spec's decision D22. That the history is kept is the
model's choice, and that a write event's value is the one the instruction computed, not what the CSR then holds, is the
model's reading, DEDUCED (notes/assumptions/16). -/
def Obligations.HistoryRecordsEachAccess : Prop :=
  ∀ (n : Nat) (h : Hart n) (i : Instr), ¬ Raises h i →
    ∃ t : Hart n, exec i ⟨n, h⟩ = .next ⟨n, t⟩ ∧
      eventsOf t.history = eventsOf h.history ++
        (if readsCsr (opOf i) (rdOf i) = true
          then [⟨h.history.length, .deviceInput, csrOf i, (h.csrRead (csrOf i)).1⟩] else []) ++
        (if writesCsr (opOf i) (srcOf i).field = true
          then [⟨h.history.length, .deviceOutput, csrOf i,
                  newValue (opOf i) (h.csrRead (csrOf i)).1 ((srcOf i).value h)⟩] else [])

/-- 20_memory.md R40: accesses of different instructions to CSRs that are not strongly ordered may be seen by others in
either order, in a history of any length; program order is always one they may see, of every history; the accesses of one
instruction are seen in their order, with no other between. `observable` is the model's own form of the rule, and its
last clause the model's reading (decision D22; notes/assumptions/7). -/
def Obligations.AccessesAreWeaklyOrdered : Prop :=
  ∀ (n : Nat) (c : Cfg n),
    (∀ e f : CsrEvent n, e.instr ≠ f.instr → Cfg.strong c e.num = false → Cfg.strong c f.num = false →
      observable c [e, f] [f, e]) ∧
    (∀ l A B r : List (CsrEvent n), inProgramOrder (l ++ A ++ B ++ r) →
      (∀ e ∈ A, ∀ f ∈ B, e.instr ≠ f.instr ∧ Cfg.strong c e.num = false ∧ Cfg.strong c f.num = false) →
      (∀ e ∈ l, ∀ f ∈ A, e.instr ≠ f.instr) → (∀ e ∈ B, ∀ f ∈ r, e.instr ≠ f.instr) →
      observable c (l ++ A ++ B ++ r) (l ++ B ++ A ++ r)) ∧
    (∀ p : List (CsrEvent n), inProgramOrder p → observable c p p) ∧
    (∀ hist : List (CsrAccess n), inProgramOrder (eventsOf hist)) ∧
    (∀ p seen : List (CsrEvent n), observable c p seen →
      (∀ e f, List.Sublist [e, f] p → e.instr = f.instr → ¬ List.Sublist [f, e] seen) ∧
      (∀ e g f, List.Sublist [e, g, f] seen → e.instr = f.instr → g.instr = e.instr))

/-! ## Runs -/

/-- 10_state.md R28: no control transfer: after `k` steps the `pc` is `pc0 + 4k`. The spec's decision D3. The history
grows by one entry for each completed instruction: the model's choice, with R49 (decision D22; notes/assumptions/16).
-/
def Obligations.RunIsAStraightLine : Prop :=
  ∀ (k n : Nat) (h : Hart n) (t : State), h.cfg.onTrap = .stop →
    Host.Core.run core k ⟨n, h⟩ = .next t →
    ∃ u : Hart n, t = ⟨n, u⟩ ∧ u.pc.toNat = (h.pc.toNat + 4 * k) % 2 ^ n ∧ u.prog = h.prog ∧
      u.history.length = h.history.length + k

/-- 70_reset_and_hazards.md R122: a run of `k` instructions from `pc0` to `pc0 + 4k` ends within `k` steps: well, after exactly
`k`, or badly, earlier or then. Every run that ends well does so at `End`, after a step of the hart that raised nothing,
in the state that step left. The spec's derivation, from its decisions D3 and D21; a run that takes `TrapEntry` ends
badly: notes/assumptions/6. -/
def Obligations.RunEndsWithinItsLength : Prop :=
  (∀ (pc0 k : Nat) (s : State), Launched pc0 (pc0 + 4 * k) s → 0 < k → pc0 + 4 * k < 2 ^ s.xlen →
    (∀ t, runTo (pc0 + 4 * k) k s ≠ .notYet t) ∧
    (∀ j, j < k → ∀ t, runTo (pc0 + 4 * k) j s ≠ .endedWell t)) ∧
  (∀ (endPc k : Nat) (s t : State), runTo endPc k s = .endedWell t →
    t.hart.pc.toNat = endPc ∧ t.hart.raised = none ∧
      ∃ u : State, hartStep u = .next t ∧ stepKind (hartStep u) = .next) ∧
  (∀ (endPc k : Nat) (s t : State), runTo endPc k s = .trapped t →
    ∃ (u : State) (r : Raised), hartStep u = .next t ∧ stepKind (hartStep u) = .trap r)

/-! ## The invariant -/

/-- Every step keeps the invariant: the configuration well formed, the CSR storage canonical, every CSR's value within
its width, the program canonical and within its space (10_state.md R17, R19; 70_reset_and_hazards.md R125). The
canonical forms are the model's own. -/
def Obligations.StepKeepsStateInvariant : Prop :=
  ∀ s t : State, s.Inv → step s = .next t → t.Inv

/-- The state the model starts from meets the invariant. Its values are the model's choice, not the spec's
(notes/assumptions/1, 2, 3). -/
def Obligations.ResetMeetsStateInvariant : Prop := State.reset.Inv

/-! ## Assembler terms -/

/-- 30_encoding.md R62: the seven pseudoinstructions and what they stand for, and the words of the six. The last four
expansions are the spec's reading (decision D30). That a term has no word when an operand does not fit its field is the
model's choice (R61, D31; notes/assumptions/18). -/
def Obligations.PseudoinstructionsStandForTheSix : Prop :=
  ∀ rd csr r : Nat,
    let f := if rd < 32 ∧ csr < 4096 ∧ r < 32 then some else fun _ : InstrWord => none
    let g := if csr < 4096 ∧ r < 32 then some else fun _ : InstrWord => none
    let d : RegNum := .ofNat 5 rd
    let a : CsrNum := .ofNat 12 csr
    let s : BitVec 5 := .ofNat 5 r
    assemble (.csrrw rd csr r) = f (encode (.csrrw d a s)) ∧
    assemble (.csrrs rd csr r) = f (encode (.csrrs d a s)) ∧
    assemble (.csrrc rd csr r) = f (encode (.csrrc d a s)) ∧
    assemble (.csrrwi rd csr r) = f (encode (.csrrwi d a s)) ∧
    assemble (.csrrsi rd csr r) = f (encode (.csrrsi d a s)) ∧
    assemble (.csrrci rd csr r) = f (encode (.csrrci d a s)) ∧
    assemble (.csrr rd csr) = (if rd < 32 ∧ csr < 4096 then some (encode (.csrrs d a 0#5)) else none) ∧
    assemble (.csrw csr r) = g (encode (.csrrw 0#5 a s)) ∧
    assemble (.csrwi csr r) = g (encode (.csrrwi 0#5 a s)) ∧
    assemble (.csrs csr r) = g (encode (.csrrs 0#5 a s)) ∧
    assemble (.csrc csr r) = g (encode (.csrrc 0#5 a s)) ∧
    assemble (.csrsi csr r) = g (encode (.csrrsi 0#5 a s)) ∧
    assemble (.csrci csr r) = g (encode (.csrrci 0#5 a s))

/-! ## Fields and registers -/

/-- 30_encoding.md R51 and R54: where the fields of a word stand, what each holds, and that the CSR number is bits 31-20 as
an unsigned number, which takes every value. -/
def Obligations.FieldsOfTheFormat : Prop :=
  (∀ (w : InstrWord) (i : Instr), decodeWord w = some i →
    csrOf i = w.extractLsb' 20 12 ∧ (csrOf i).toNat = w.toNat / 2 ^ 20 ∧ (csrOf i).toNat < 4096 ∧
    (srcOf i).field = w.extractLsb' 15 5 ∧ rdOf i = w.extractLsb' 7 5 ∧
    w.extractLsb' 0 7 = opcodeSystem) ∧
  (∀ (v w : InstrWord) (i : Instr), v.extractLsb' 0 7 = w.extractLsb' 0 7 → v.extractLsb' 12 3 = w.extractLsb' 12 3 →
    decodeWord v = some i →
    ∃ j, decodeWord w = some j ∧ opOf j = opOf i ∧ ((∃ r, srcOf j = .reg r) ↔ ∃ r, srcOf i = .reg r)) ∧
  (∀ (v w : InstrWord) (i j : Instr), decodeWord v = some i → decodeWord w = some j → opOf i = opOf j →
    ((∃ r, srcOf i = .reg r) ↔ ∃ r, srcOf j = .reg r) → v.extractLsb' 12 3 = w.extractLsb' 12 3) ∧
  (∀ a : CsrNum, ∃ (w : InstrWord) (i : Instr), decodeWord w = some i ∧ csrOf i = a)

/-- 30_encoding.md R55: the immediate is bits 19-15 as an unsigned number, zero-extended; an immediate form sets, clears or
writes bits 4-0 alone, and CSRRWI writes zeros into the higher writable bits. -/
def Obligations.ImmediateIsZeroExtended : Prop :=
  ∀ (w : InstrWord) (i : Instr) (u : Uimm), decodeWord w = some i → srcOf i = .imm u →
    u = w.extractLsb' 15 5 ∧ u.toNat ≤ 31 ∧
    ∀ (n : Nat) (h : Hart n), h.cfg.wf = true →
      ((srcOf i).value h).toNat = u.toNat ∧
      (¬ Raises h i → (h.cfg.entry (csrOf i)).onRead ≠ .free → (h.cfg.entry (csrOf i)).onWrite ≠ .free →
        (writesCsr (opOf i) u = true ∨ (h.cfg.entry (csrOf i)).implicit = .none) →
        ∃ t : Hart n, exec i ⟨n, h⟩ = .next ⟨n, t⟩ ∧
          ∀ k, 5 ≤ k → (t.getCsr (csrOf i)).getLsbD k =
            if opOf i = .write ∧ (h.csrMask (csrOf i)).getLsbD k = true then false
            else (h.getCsr (csrOf i)).getLsbD k)

/-- 10_state.md R13: which registers each instruction reads and writes. It reads at most `rs1`: a register form with
`rs1 ≠ x0`, and CSRRW always, `x0` giving zero, and the value written comes from it; no form reads `rd`, and with `rd
= rs1` the value used is the initial one, since with another destination the CSRs and the environment end the same. It
writes `rd` alone, with the value read, and CSRRW and CSRRWI only where it is not `x0`. The accesses are those the
spec gives, none under no law (notes/assumptions/4); the discard is the spec's decision D2, the order of the steps
D13. -/
def Obligations.RegistersReadAndWritten : Prop :=
  ∀ (n : Nat) (h : Hart n) (i : Instr), h.cfg.wf = true → Cfg.settled h.cfg → ¬ Raises h i →
    h.readReg 0#5 = 0#n ∧
    ∃ t : Hart n, exec i ⟨n, h⟩ = .next ⟨n, t⟩ ∧
      (∀ j, j ≠ rdOf i → t.readReg j = h.readReg j) ∧
      (rdOf i = 0#5 → t.x = h.x) ∧
      (rdOf i ≠ 0#5 → t.readReg (rdOf i) = (h.csrRead (csrOf i)).1) ∧
      (∀ r, srcOf i = .reg r → writesCsr (opOf i) r = true →
        let S := if readsCsr (opOf i) (rdOf i) = true then (h.csrRead (csrOf i)).2 else h
        let v := newValue (opOf i) (h.csrRead (csrOf i)).1 (h.readReg r)
        t.csr = ((S.csrWrite (csrOf i) v (explicitMask (opOf i) (h.readReg r))).implicitUpdate (encode i)
          (some (csrOf i))).csr) ∧
      (∀ x : Vector (BitVec n) 31,
        (∀ r, srcOf i = .reg r → r ≠ 0#5 → Hart.readReg { h with x := x } r = h.readReg r) →
        ∃ k : Hart n, exec i ⟨n, { h with x := x }⟩ = .next ⟨n, k⟩ ∧ k.csr = t.csr ∧ k.env = t.env ∧
          (rdOf i ≠ 0#5 → k.readReg (rdOf i) = t.readReg (rdOf i))) ∧
      (∀ j, opOf j = opOf i → srcOf j = srcOf i → csrOf j = csrOf i → rdOf i ≠ 0#5 → rdOf j ≠ 0#5 →
        ∃ k : Hart n, exec j ⟨n, h⟩ = .next ⟨n, k⟩ ∧ k.csr = t.csr ∧ k.env = t.env)

/-- 40_csr_register_forms.md R75: where a CSR holds fewer bits than `XLEN`, the bits of the value and of the mask from its
width up have no effect on a write, whatever its side effects, and those of a value read are zero. The first half is
the spec's derivation (decision D28); that a write under no law is not shown them is notes/assumptions/4. -/
def Obligations.BitsAboveTheWidthHaveNoEffect : Prop :=
  ∀ (n : Nat) (h : Hart n) (a : CsrNum), h.cfg.wf = true →
    let W := (h.cfg.entry a).width
    (∀ v em v' em' : BitVec n, (∀ k, k < W → v.getLsbD k = v'.getLsbD k ∧ em.getLsbD k = em'.getLsbD k) →
      h.csrWrite a v em = h.csrWrite a v' em') ∧
    (∀ k, W ≤ k → (h.csrRead a).1.getLsbD k = false)
end

