-- ==== Sys2Proof/Laws/Keyed.lean ====
section
/-! SUPPORT. Keyed lists, the CSR storage and the instruction space: read after write, and that every operation
keeps the canonical form. -/

namespace Sys2Proof.Machine

variable {α : Type}

theorem assocGet_put_same (k : Nat) (v : α) (l : List (Nat × α)) : assocGet (assocPut k v l) k = some v := by
  induction l with
  | nil => simp [assocPut, assocGet]
  | cons p t ih =>
    obtain ⟨j, w⟩ := p
    simp only [assocPut]
    split
    · simp [assocGet]
    · split
      · simp [assocGet]
      · next hne => simp [assocGet, hne, ih]

theorem assocGet_put_other {k j : Nat} (hne : j ≠ k) (v : α) (l : List (Nat × α)) :
    assocGet (assocPut k v l) j = assocGet l j := by
  induction l with
  | nil => simp [assocPut, assocGet, Ne.symm hne]
  | cons p t ih =>
    obtain ⟨i, w⟩ := p
    simp only [assocPut]
    split
    · simp [assocGet, Ne.symm hne]
    · split
      · next _ e => subst e; simp [assocGet, Ne.symm hne]
      · simp [assocGet, ih]

theorem assocGet_erase_same (k : Nat) (l : List (Nat × α)) : assocGet (assocErase k l) k = none := by
  induction l with
  | nil => rfl
  | cons p t ih =>
    obtain ⟨i, w⟩ := p
    simp only [assocErase]
    split
    · exact ih
    · next hne => simp [assocGet, hne, ih]

theorem assocGet_erase_other {k j : Nat} (hne : j ≠ k) (l : List (Nat × α)) :
    assocGet (assocErase k l) j = assocGet l j := by
  induction l with
  | nil => rfl
  | cons p t ih =>
    obtain ⟨i, w⟩ := p
    simp only [assocErase]
    split
    · next e => subst e; simp [assocGet, Ne.symm hne, ih]
    · simp [assocGet, ih]

/-- An entry of a list after a put is the one put or an old one. -/
theorem mem_assocPut {k : Nat} {v : α} {p : Nat × α} {l : List (Nat × α)} (h : p ∈ assocPut k v l) :
    p = (k, v) ∨ p ∈ l := by
  induction l with
  | nil => simpa [assocPut] using h
  | cons q t ih =>
    obtain ⟨j, w⟩ := q
    simp only [assocPut] at h
    split at h
    · simpa using h
    · split at h
      · simp only [List.mem_cons] at h ⊢; tauto
      · simp only [List.mem_cons] at h ⊢
        rcases h with h | h
        · exact .inr (.inl h)
        · exact (ih h).imp_right .inr

/-- An entry of a list after an erase is an old one, at another key. -/
theorem mem_assocErase {k : Nat} {p : Nat × α} {l : List (Nat × α)} (h : p ∈ assocErase k l) :
    p ∈ l ∧ p.1 ≠ k := by
  induction l with
  | nil => simp [assocErase] at h
  | cons q t ih =>
    obtain ⟨j, w⟩ := q
    simp only [assocErase] at h
    split at h
    · exact ⟨.tail _ (ih h).1, (ih h).2⟩
    · next hne =>
      rcases List.mem_cons.1 h with rfl | h
      · exact ⟨.head _, hne⟩
      · exact ⟨.tail _ (ih h).1, (ih h).2⟩

theorem Rising.assocPut {k : Nat} {v : α} {l : List (Nat × α)} (h : Rising l) : Rising (assocPut k v l) := by
  induction l with
  | nil => simp [Rising, Machine.assocPut]
  | cons q t ih =>
    obtain ⟨j, w⟩ := q
    have hr : (∀ p ∈ t, j < p.1) ∧ Rising t := by
      simpa [Rising, List.pairwise_cons] using h
    simp only [Machine.assocPut]
    split
    · next hlt =>
      refine List.pairwise_cons.2 ⟨?_, h⟩
      intro b hb
      simp only [List.map_cons, List.mem_cons, List.mem_map] at hb
      rcases hb with rfl | ⟨p, hp, rfl⟩
      · exact hlt
      · exact hlt.trans (hr.1 p hp)
    · split
      · next e => subst e; simpa [Rising, List.pairwise_cons] using hr
      · next hge hne =>
        refine List.pairwise_cons.2 ⟨?_, ih hr.2⟩
        intro b hb
        obtain ⟨p, hp, rfl⟩ := List.mem_map.1 hb
        rcases mem_assocPut hp with rfl | hp
        · show j < k; omega
        · exact hr.1 p hp

theorem Rising.assocErase {k : Nat} {l : List (Nat × α)} (h : Rising l) : Rising (assocErase k l) := by
  induction l with
  | nil => simp [Rising, Machine.assocErase]
  | cons q t ih =>
    obtain ⟨j, w⟩ := q
    have hr : (∀ p ∈ t, j < p.1) ∧ Rising t := by
      simpa [Rising, List.pairwise_cons] using h
    simp only [Machine.assocErase]
    split
    · exact ih hr.2
    · refine List.pairwise_cons.2 ⟨?_, ih hr.2⟩
      intro b hb
      obtain ⟨p, hp, rfl⟩ := List.mem_map.1 hb
      exact hr.1 p (mem_assocErase hp).1

/-! ## The storage of the CSRs -/

theorem csrNum_toNat_ne {a b : CsrNum} (h : b ≠ a) : b.toNat ≠ a.toNat := fun e =>
  h (BitVec.eq_of_toNat_eq e)

theorem csrGet_put_same {n : Nat} (keep : Bool) (f : List (Nat × BitVec n)) (a : CsrNum) (v : BitVec n) :
    csrGet (csrPut keep f a v) a = v := by
  unfold csrGet csrPut
  split
  · simp [assocGet_put_same]
  · split
    · next e => simp [assocGet_erase_same, e]
    · simp [assocGet_put_same]

theorem csrGet_put_other {n : Nat} (keep : Bool) (f : List (Nat × BitVec n)) {a b : CsrNum} (hne : b ≠ a)
    (v : BitVec n) : csrGet (csrPut keep f a v) b = csrGet f b := by
  unfold csrGet csrPut
  have := csrNum_toNat_ne hne
  split
  · simp [assocGet_put_other this]
  · split
    · simp [assocGet_erase_other this]
    · simp [assocGet_put_other this]

@[simp] theorem Hart.getCsr_setCsr_same {n : Nat} (h : Hart n) (a : CsrNum) (v : BitVec n) :
    (h.setCsr a v).getCsr a = v := csrGet_put_same _ _ _ _

theorem Hart.getCsr_setCsr_other {n : Nat} (h : Hart n) {a b : CsrNum} (hne : b ≠ a) (v : BitVec n) :
    (h.setCsr a v).getCsr b = h.getCsr b := csrGet_put_other _ _ hne _

/-- The storage as a function of the number: `csr[a] <- v`. -/
theorem Hart.getCsr_setCsr {n : Nat} (h : Hart n) (a b : CsrNum) (v : BitVec n) :
    (h.setCsr a v).getCsr b = if b = a then v else h.getCsr b := by
  split
  · next e => subst e; simp
  · next e => exact h.getCsr_setCsr_other e v

theorem findEntry_isSome_of_mem {n : Nat} {l : List (CsrNum × CsrEntry n)} {p : CsrNum × CsrEntry n}
    (hp : p ∈ l) : (findEntry l p.1).isSome = true := by
  induction l with
  | nil => cases hp
  | cons q t ih =>
    obtain ⟨b, e⟩ := q
    simp only [findEntry]
    split
    · rfl
    · next hne =>
      rcases List.mem_cons.1 hp with rfl | hp
      · exact absurd rfl hne
      · exact ih hp

/-- A store keeps the canonical form of the storage. -/
theorem csrFileWf_setCsr {n : Nat} {h : Hart n} (hf : csrFileWf h.cfg h.csr) (a : CsrNum) (v : BitVec n) :
    csrFileWf (h.setCsr a v).cfg (h.setCsr a v).csr := by
  obtain ⟨hr, hm, hl⟩ := hf
  have hput : v ≠ 0#n ∨ h.cfg.isListed a = true → csrFileWf h.cfg (assocPut a.toNat v h.csr) := by
    intro hv
    refine ⟨hr.assocPut, ?_, ?_⟩
    · intro p hp
      rcases mem_assocPut hp with rfl | hp
      · refine ⟨a.isLt, ?_⟩
        simpa using hv
      · exact hm p hp
    · intro p hp
      by_cases e : p.1 = a
      · simp [e, assocGet_put_same]
      · rw [assocGet_put_other (csrNum_toNat_ne e)]; exact hl p hp
  show csrFileWf h.cfg (csrPut (h.cfg.isListed a) h.csr a v)
  unfold csrPut
  split
  · next hk => exact hput (.inr hk)
  · next hk =>
    split
    · refine ⟨hr.assocErase, fun p hp => hm p (mem_assocErase hp).1, ?_⟩
      intro p hp
      have hne : p.1 ≠ a := by
        rintro rfl
        apply hk
        exact findEntry_isSome_of_mem hp
      rw [assocGet_erase_other (csrNum_toNat_ne hne)]; exact hl p hp
    · next hv => exact hput (.inl hv)

/-! ## The instruction space -/

theorem Memory.read_write_same (m : Memory) (a : Nat) (v : Byte) : (m.write a v).read a = some v :=
  assocGet_put_same _ _ _

theorem Memory.read_write_other (m : Memory) {a b : Nat} (hne : b ≠ a) (v : Byte) :
    (m.write a v).read b = m.read b := assocGet_put_other hne _ _

/-- A write keeps the canonical form. -/
theorem Memory.wf_write {m : Memory} (h : m.wf) (a : Nat) (v : Byte) : (m.write a v).wf :=
  Rising.assocPut h

theorem Memory.inSpace_write {m : Memory} {n a : Nat} (h : m.inSpace n) (ha : a < 2 ^ n) (v : Byte) :
    (m.write a v).inSpace n := fun p hp =>
  (mem_assocPut hp).elim (fun e => e ▸ ha) (h p)

/-- Writing bytes keeps the canonical form. -/
theorem Memory.wf_writeBytes {m : Memory} (h : m.wf) (a : Nat) (bs : List Byte) : (m.writeBytes a bs).wf := by
  induction bs generalizing m a with
  | nil => exact h
  | cons b bs ih => exact ih (Memory.wf_write h a b) (a + 1)

/-- Writing bytes from `a` up leaves every address outside them. -/
theorem Memory.read_writeBytes_other (m : Memory) {a b : Nat} (bs : List Byte)
    (hb : b < a ∨ a + bs.length ≤ b) : (m.writeBytes a bs).read b = m.read b := by
  induction bs generalizing m a with
  | nil => rfl
  | cons v vs ih =>
    simp only [List.length_cons] at hb
    have h1 : b < a + 1 ∨ a + 1 + vs.length ≤ b := by omega
    have h2 : b ≠ a := by omega
    rw [Memory.writeBytes, ih (m.write a v) h1, Memory.read_write_other m h2]

end Sys2Proof.Machine
end

