-- ==== Sys2Proof/Laws/State.lean ====
section
/-! SUPPORT. One lemma per field per update of the state, true by unfolding the update once; and the laws of
the register file. -/

namespace Sys2Proof.Machine

/-! ### `setCsr` and `setBulb` -/

@[simp] theorem Hart.setCsr_x {n : Nat} (h : Hart n) (a : CsrNum) (v : BitVec n) :
    (h.setCsr a v).x = h.x := rfl

@[simp] theorem Hart.setCsr_pc {n : Nat} (h : Hart n) (a : CsrNum) (v : BitVec n) :
    (h.setCsr a v).pc = h.pc := rfl

@[simp] theorem Hart.setCsr_env {n : Nat} (h : Hart n) (a : CsrNum) (v : BitVec n) :
    (h.setCsr a v).env = h.env := rfl

@[simp] theorem Hart.setCsr_cfg {n : Nat} (h : Hart n) (a : CsrNum) (v : BitVec n) :
    (h.setCsr a v).cfg = h.cfg := rfl

@[simp] theorem Hart.setCsr_prog {n : Nat} (h : Hart n) (a : CsrNum) (v : BitVec n) :
    (h.setCsr a v).prog = h.prog := rfl

@[simp] theorem Hart.setCsr_draws {n : Nat} (h : Hart n) (a : CsrNum) (v : BitVec n) :
    (h.setCsr a v).draws = h.draws := rfl

@[simp] theorem Hart.setCsr_history {n : Nat} (h : Hart n) (a : CsrNum) (v : BitVec n) :
    (h.setCsr a v).history = h.history := rfl

@[simp] theorem Hart.setCsr_raised {n : Nat} (h : Hart n) (a : CsrNum) (v : BitVec n) :
    (h.setCsr a v).raised = h.raised := rfl

@[simp] theorem Hart.setCsr_csr {n : Nat} (h : Hart n) (a : CsrNum) (v : BitVec n) :
    (h.setCsr a v).csr = csrPut (h.cfg.isListed a) h.csr a v := rfl

@[simp] theorem Hart.setBulb_x {n : Nat} (h : Hart n) (on : Bool) :
    (h.setBulb on).x = h.x := rfl

@[simp] theorem Hart.setBulb_pc {n : Nat} (h : Hart n) (on : Bool) :
    (h.setBulb on).pc = h.pc := rfl

@[simp] theorem Hart.setBulb_csr {n : Nat} (h : Hart n) (on : Bool) :
    (h.setBulb on).csr = h.csr := rfl

@[simp] theorem Hart.setBulb_cfg {n : Nat} (h : Hart n) (on : Bool) :
    (h.setBulb on).cfg = h.cfg := rfl

@[simp] theorem Hart.setBulb_prog {n : Nat} (h : Hart n) (on : Bool) :
    (h.setBulb on).prog = h.prog := rfl

@[simp] theorem Hart.setBulb_draws {n : Nat} (h : Hart n) (on : Bool) :
    (h.setBulb on).draws = h.draws := rfl

@[simp] theorem Hart.setBulb_history {n : Nat} (h : Hart n) (on : Bool) :
    (h.setBulb on).history = h.history := rfl

@[simp] theorem Hart.setBulb_raised {n : Nat} (h : Hart n) (on : Bool) :
    (h.setBulb on).raised = h.raised := rfl

@[simp] theorem Hart.setBulb_bulb {n : Nat} (h : Hart n) (on : Bool) :
    (h.setBulb on).env.bulb = on := rfl

@[simp] theorem Hart.setBulb_device {n : Nat} (h : Hart n) (on : Bool) :
    (h.setBulb on).env.device = h.env.device := rfl

@[simp] theorem Hart.setBulb_getCsr {n : Nat} (h : Hart n) (on : Bool) (b : CsrNum) :
    (h.setBulb on).getCsr b = h.getCsr b := rfl

/-! ### `writeReg` -/

@[simp] theorem Hart.writeReg_pc {n : Nat} (h : Hart n) (i : RegNum) (v : BitVec n) :
    (h.writeReg i v).pc = h.pc := by
  unfold Hart.writeReg; split <;> rfl

@[simp] theorem Hart.writeReg_csr {n : Nat} (h : Hart n) (i : RegNum) (v : BitVec n) :
    (h.writeReg i v).csr = h.csr := by
  unfold Hart.writeReg; split <;> rfl

@[simp] theorem Hart.writeReg_env {n : Nat} (h : Hart n) (i : RegNum) (v : BitVec n) :
    (h.writeReg i v).env = h.env := by
  unfold Hart.writeReg; split <;> rfl

@[simp] theorem Hart.writeReg_cfg {n : Nat} (h : Hart n) (i : RegNum) (v : BitVec n) :
    (h.writeReg i v).cfg = h.cfg := by
  unfold Hart.writeReg; split <;> rfl

@[simp] theorem Hart.writeReg_prog {n : Nat} (h : Hart n) (i : RegNum) (v : BitVec n) :
    (h.writeReg i v).prog = h.prog := by
  unfold Hart.writeReg; split <;> rfl

@[simp] theorem Hart.writeReg_draws {n : Nat} (h : Hart n) (i : RegNum) (v : BitVec n) :
    (h.writeReg i v).draws = h.draws := by
  unfold Hart.writeReg; split <;> rfl

@[simp] theorem Hart.writeReg_history {n : Nat} (h : Hart n) (i : RegNum) (v : BitVec n) :
    (h.writeReg i v).history = h.history := by
  unfold Hart.writeReg; split <;> rfl

@[simp] theorem Hart.writeReg_raised {n : Nat} (h : Hart n) (i : RegNum) (v : BitVec n) :
    (h.writeReg i v).raised = h.raised := by
  unfold Hart.writeReg; split <;> rfl

@[simp] theorem Hart.writeReg_getCsr {n : Nat} (h : Hart n) (i : RegNum) (v : BitVec n) (b : CsrNum) :
    (h.writeReg i v).getCsr b = h.getCsr b := by
  unfold Hart.getCsr; rw [h.writeReg_csr]

/-! ### `withFetchWord` -/

@[simp] theorem Hart.withFetchWord_x {n : Nat} (h : Hart n) (w : InstrWord) :
    (h.withFetchWord w).x = h.x := rfl

@[simp] theorem Hart.withFetchWord_csr {n : Nat} (h : Hart n) (w : InstrWord) :
    (h.withFetchWord w).csr = h.csr := rfl

@[simp] theorem Hart.withFetchWord_env {n : Nat} (h : Hart n) (w : InstrWord) :
    (h.withFetchWord w).env = h.env := rfl

@[simp] theorem Hart.withFetchWord_cfg {n : Nat} (h : Hart n) (w : InstrWord) :
    (h.withFetchWord w).cfg = h.cfg := rfl

@[simp] theorem Hart.withFetchWord_draws {n : Nat} (h : Hart n) (w : InstrWord) :
    (h.withFetchWord w).draws = h.draws := rfl

@[simp] theorem Hart.withFetchWord_history {n : Nat} (h : Hart n) (w : InstrWord) :
    (h.withFetchWord w).history = h.history := rfl

@[simp] theorem Hart.withFetchWord_raised {n : Nat} (h : Hart n) (w : InstrWord) :
    (h.withFetchWord w).raised = h.raised := rfl

@[simp] theorem Hart.withFetchWord_pc {n : Nat} (h : Hart n) (w : InstrWord) :
    (h.withFetchWord w).pc = alignedPc h.pc := rfl

@[simp] theorem Hart.withFetchWord_prog {n : Nat} (h : Hart n) (w : InstrWord) :
    (h.withFetchWord w).prog = h.prog.writeBytes (alignedPc h.pc).toNat (bytesOfWord w) := rfl

/-! ### The registers -/

@[simp] theorem Hart.readReg_zero {n : Nat} (h : Hart n) : h.readReg 0#5 = 0#n := rfl

theorem regNum_toNat_ne_zero {i : RegNum} (hi : i ≠ 0#5) : i.toNat ≠ 0 := fun h =>
  hi (BitVec.eq_of_toNat_eq (by simpa using h))

theorem Hart.readReg_writeReg_same {n : Nat} (h : Hart n) {i : RegNum} (hi : i ≠ 0#5) (v : BitVec n) :
    (h.writeReg i v).readReg i = v := by
  have h0 := regNum_toNat_ne_zero hi
  simp [Hart.readReg, Hart.writeReg, h0]

theorem Hart.readReg_writeReg_other {n : Nat} (h : Hart n) {i j : RegNum} (hij : j ≠ i) (v : BitVec n) :
    (h.writeReg i v).readReg j = h.readReg j := by
  have hne : j.toNat ≠ i.toNat := fun e => hij (BitVec.eq_of_toNat_eq e)
  by_cases hi : i.toNat = 0
  · simp [Hart.writeReg, hi]
  · by_cases hj : j.toNat = 0
    · simp [Hart.readReg, hj]
    · have : i.toNat - 1 ≠ j.toNat - 1 := by omega
      simp [Hart.readReg, Hart.writeReg, hi, hj, Vector.getElem_set_ne, this]

/-- The registers are read from `x` alone. -/
theorem Hart.readReg_congr {n : Nat} {h k : Hart n} (hx : h.x = k.x) (i : RegNum) :
    h.readReg i = k.readReg i := by simp only [Hart.readReg, hx]

end Sys2Proof.Machine
end

