-- ==== Sys2Proof/Laws/Csr.lean ====
section
/-! SUPPORT. What each shared operation over CSRs can do, said once: bits of the merged value, the interface of
one CSR, implicit update, the environment's step; and what each leaves unchanged. -/

namespace Sys2Proof.Machine

/-! ## Bits -/

theorem getLsbD_clip {n : Nat} (w : Nat) (v : BitVec n) (i : Nat) :
    (clip w v).getLsbD i = (decide (i < n) && (decide (i < w) && v.getLsbD i)) := by
  simp [clip]

@[simp] theorem clip_clip {n : Nat} (w : Nat) (v : BitVec n) : clip w (clip w v) = clip w v := by
  apply BitVec.eq_of_getLsbD_eq
  intro i hi
  simp only [getLsbD_clip]
  cases decide (i < n) <;> cases decide (i < w) <;> simp

theorem clip_of_le {n w : Nat} (h : n ≤ w) (v : BitVec n) : clip w v = v := by
  apply BitVec.eq_of_getLsbD_eq
  intro i hi
  rw [getLsbD_clip, decide_eq_true hi, decide_eq_true (by omega : i < w), Bool.true_and, Bool.true_and]

/-- `v mod 2^W`. -/
theorem toNat_clip {n w : Nat} (h : w ≤ n) (v : BitVec n) : (clip w v).toNat = v.toNat % 2 ^ w := by
  have : v.toNat % 2 ^ w < 2 ^ n :=
    lt_of_lt_of_le (Nat.mod_lt _ (Nat.two_pow_pos w)) (Nat.pow_le_pow_right (by decide) h)
  simp [clip, Nat.mod_eq_of_lt this]

theorem getLsbD_mergeBits {n : Nat} (old v m : BitVec n) (i : Nat) :
    (mergeBits old v m).getLsbD i = if m.getLsbD i then v.getLsbD i else old.getLsbD i := by
  by_cases hi : i < n
  · simp only [mergeBits, BitVec.getLsbD_or, BitVec.getLsbD_and, BitVec.getLsbD_not, decide_eq_true hi]
    cases m.getLsbD i <;> simp
  · simp [BitVec.getLsbD_of_ge _ _ (by omega : n ≤ i)]

/-- A merge under a mask within the width, of a value within the width, is within the width. -/
theorem clip_mergeBits {n w : Nat} {old v m : BitVec n} (ho : clip w old = old) (hm : clip w m = m) :
    clip w (mergeBits old v m) = mergeBits old v m := by
  apply BitVec.eq_of_getLsbD_eq
  intro i hi
  rw [getLsbD_clip, getLsbD_mergeBits]
  by_cases hw : i < w
  · simp [hi, hw]
  · have h1 : m.getLsbD i = false := by rw [← hm, getLsbD_clip]; simp [hw]
    have h2 : old.getLsbD i = false := by rw [← ho, getLsbD_clip]; simp [hw]
    simp [hw, h1, h2]

theorem clip_and {n w : Nat} {a m : BitVec n} (hm : clip w m = m) : clip w (a &&& m) = a &&& m := by
  apply BitVec.eq_of_getLsbD_eq
  intro i hi
  rw [getLsbD_clip]
  by_cases hw : i < w
  · simp [hi, hw]
  · have h1 : m.getLsbD i = false := by rw [← hm, getLsbD_clip]; simp [hw]
    simp [hw, h1]

/-! ## What no access to a CSR changes -/

/-- `k` differs from `h` in the storage of CSRs and in the environment only. -/
structure Hart.Kept {n : Nat} (h k : Hart n) : Prop where
  x       : k.x = h.x
  pc      : k.pc = h.pc
  cfg     : k.cfg = h.cfg
  prog    : k.prog = h.prog
  draws   : k.draws = h.draws
  history : k.history = h.history
  raised  : k.raised = h.raised

theorem Hart.Kept.refl {n : Nat} (h : Hart n) : h.Kept h := ⟨rfl, rfl, rfl, rfl, rfl, rfl, rfl⟩

theorem Hart.Kept.trans {n : Nat} {h k l : Hart n} (a : h.Kept k) (b : k.Kept l) : h.Kept l :=
  ⟨b.x.trans a.x, b.pc.trans a.pc, b.cfg.trans a.cfg, b.prog.trans a.prog, b.draws.trans a.draws,
   b.history.trans a.history, b.raised.trans a.raised⟩

theorem Hart.Kept.setCsr {n : Nat} (h : Hart n) (a : CsrNum) (v : BitVec n) : h.Kept (h.setCsr a v) :=
  ⟨rfl, rfl, rfl, rfl, rfl, rfl, rfl⟩

theorem Hart.Kept.setBulb {n : Nat} (h : Hart n) (on : Bool) : h.Kept (h.setBulb on) :=
  ⟨rfl, rfl, rfl, rfl, rfl, rfl, rfl⟩

theorem Hart.Kept.withEnv {n : Nat} {h k : Hart n} (a : h.Kept k) (e : Env) : h.Kept { k with env := e } :=
  ⟨a.x, a.pc, a.cfg, a.prog, a.draws, a.history, a.raised⟩

theorem Hart.Kept.applyPokes {n : Nat} (skip : Option CsrNum) (l : List (CsrNum × BitVec n)) (h : Hart n) :
    h.Kept (Hart.applyPokes skip l h) := by
  induction l generalizing h with
  | nil => exact .refl h
  | cons p t ih =>
    obtain ⟨b, v⟩ := p
    simp only [Hart.applyPokes]
    split
    · exact ih h
    · exact (Hart.Kept.setCsr h b _).trans (ih _)

theorem Hart.Kept.csrRead {n : Nat} (h : Hart n) (a : CsrNum) : h.Kept (h.csrRead a).2 := by
  unfold Hart.csrRead
  split
  · exact .refl h
  · exact .setBulb h true
  · exact (Hart.Kept.applyPokes _ _ h).withEnv _

theorem Hart.Kept.csrWrite {n : Nat} (h : Hart n) (a : CsrNum) (v em : BitVec n) :
    h.Kept (h.csrWrite a v em) := by
  unfold Hart.csrWrite
  split
  · exact .setCsr h a _
  · split
    · exact (Hart.Kept.setCsr h a _).trans (.setBulb _ false)
    · exact .setCsr h a _
  · exact ((Hart.Kept.setCsr h a _).trans (.applyPokes _ _ _)).withEnv _

theorem Hart.Kept.updateEach {n : Nat} (f : CsrNum → CsrEntry n → Option (BitVec n))
    (l : List (CsrNum × CsrEntry n)) (h : Hart n) : h.Kept (Hart.updateEach f l h) := by
  induction l generalizing h with
  | nil => exact .refl h
  | cons p t ih =>
    obtain ⟨b, e⟩ := p
    simp only [Hart.updateEach]
    split
    · exact (Hart.Kept.setCsr h b _).trans (ih _)
    · exact ih h

theorem Hart.Kept.implicitUpdate {n : Nat} (h : Hart n) (word : InstrWord) (skip : Option CsrNum) :
    h.Kept (h.implicitUpdate word skip) := .updateEach _ _ _

/-- `updateEach` touches no environment. -/
@[simp] theorem Hart.updateEach_env {n : Nat} (f : CsrNum → CsrEntry n → Option (BitVec n))
    (l : List (CsrNum × CsrEntry n)) (h : Hart n) : (Hart.updateEach f l h).env = h.env := by
  induction l generalizing h with
  | nil => rfl
  | cons p t ih =>
    obtain ⟨b, e⟩ := p
    simp only [Hart.updateEach]
    rw [ih]
    split <;> rfl

@[simp] theorem Hart.implicitUpdate_env {n : Nat} (h : Hart n) (word : InstrWord) (skip : Option CsrNum) :
    (h.implicitUpdate word skip).env = h.env := Hart.updateEach_env _ _ _

/-! ## The entries of a configuration -/

theorem findEntry_none_of_rising {n : Nat} {b : CsrNum} {l : List (CsrNum × CsrEntry n)}
    (h : ∀ p ∈ l, b.toNat < p.1.toNat) : findEntry l b = none := by
  induction l with
  | nil => rfl
  | cons q t ih =>
    obtain ⟨c, e⟩ := q
    have : c ≠ b := by
      rintro rfl
      exact absurd (h _ (.head _)) (lt_irrefl _)
    simp only [findEntry, this, if_false]
    exact ih fun p hp => h p (.tail _ hp)

theorem findEntry_mem {n : Nat} {l : List (CsrNum × CsrEntry n)} {a : CsrNum} {e : CsrEntry n}
    (h : findEntry l a = some e) : (a, e) ∈ l := by
  induction l with
  | nil => cases h
  | cons q t ih =>
    obtain ⟨b, e'⟩ := q
    simp only [findEntry] at h
    split at h
    · next hb => cases h; subst hb; exact .head _
    · exact .tail _ (ih h)

theorem Cfg.entry_of_find {n : Nat} {c : Cfg n} {a : CsrNum} {e : CsrEntry n}
    (h : findEntry c.listed a = some e) : c.entry a = e := by simp [Cfg.entry, h]

theorem Cfg.entry_of_find_none {n : Nat} {c : Cfg n} {a : CsrNum} (h : findEntry c.listed a = none) :
    c.entry a = c.rest := by simp [Cfg.entry, h]

theorem Cfg.wf_width {n : Nat} {c : Cfg n} (h : c.wf = true) : 5 ≤ n := by
  simp only [Cfg.wf, Bool.and_eq_true, decide_eq_true_eq] at h; exact h.1.1.1.1

theorem Cfg.wf_rising {n : Nat} {c : Cfg n} (h : c.wf = true) : risingNumbers c.listed := by
  simp only [Cfg.wf, Bool.and_eq_true, decide_eq_true_eq] at h; exact h.1.1.1.2

theorem Cfg.wf_still {n : Nat} {c : Cfg n} (h : c.wf = true) :
    c.rest.implicit = .none ∧ c.rest.envAffected = false := by
  simp only [Cfg.wf, CsrEntry.still, Bool.and_eq_true, decide_eq_true_eq, Bool.not_eq_true'] at h
  exact h.2

/-- Every entry of a well-formed configuration is well formed. -/
theorem Cfg.wf_entry {n : Nat} {c : Cfg n} (h : c.wf = true) (a : CsrNum) :
    (c.entry a).width ≤ n ∧ clip (c.entry a).width (c.entry a).writable = (c.entry a).writable := by
  have hall : ∀ p ∈ c.listed, p.2.wf = true := by
    simp only [Cfg.wf, Bool.and_eq_true] at h
    exact List.all_eq_true.1 h.1.1.2
  have hrest : c.rest.wf = true := by
    simp only [Cfg.wf, Bool.and_eq_true] at h; exact h.1.2
  have he : (c.entry a).wf = true := by
    cases hf : findEntry c.listed a with
    | none => rw [Cfg.entry_of_find_none hf]; exact hrest
    | some e => rw [Cfg.entry_of_find hf]; exact hall _ (findEntry_mem hf)
  simpa [CsrEntry.wf] using he

/-! ## CSRs that change without being named -/

/-- What `updateEach` leaves in a CSR, where each number is listed once. -/
theorem Hart.getCsr_updateEach {n : Nat} (f : CsrNum → CsrEntry n → Option (BitVec n))
    {l : List (CsrNum × CsrEntry n)} (hl : risingNumbers l) (h : Hart n) (b : CsrNum) :
    (Hart.updateEach f l h).getCsr b =
      match findEntry l b with
      | some e => ((f b e).map (clip e.width)).getD (h.getCsr b)
      | none => h.getCsr b := by
  induction l generalizing h with
  | nil => rfl
  | cons q t ih =>
    obtain ⟨c, e⟩ := q
    have hr : (∀ p ∈ t, c.toNat < p.1.toNat) ∧ risingNumbers t := by
      have := List.pairwise_cons.1 hl
      exact ⟨fun p hp => this.1 _ (List.mem_map_of_mem hp), this.2⟩
    simp only [Hart.updateEach, findEntry]
    rw [ih hr.2]
    by_cases hcb : c = b
    · subst hcb
      rw [findEntry_none_of_rising hr.1, if_pos rfl]
      cases hf : f c e <;> simp [hf]
    · have hbc : b ≠ c := fun e => hcb e.symm
      rw [if_neg hcb]
      cases f c e with
      | none => rfl
      | some v => simp only [h.getCsr_setCsr_other hbc]

/-- What `ImplicitUpdate` leaves in a CSR. -/
theorem Hart.getCsr_implicitUpdate {n : Nat} {h : Hart n} (hw : h.cfg.wf = true) (word : InstrWord)
    (skip : Option CsrNum) (b : CsrNum) :
    (h.implicitUpdate word skip).getCsr b =
      if skip = some b then h.getCsr b
      else ((implicitValue h word b (h.cfg.entry b)).map (clip (h.cfg.entry b).width)).getD (h.getCsr b) := by
  unfold Hart.implicitUpdate
  rw [Hart.getCsr_updateEach _ (Cfg.wf_rising hw)]
  cases hf : findEntry h.cfg.listed b with
  | some e =>
    simp only [Cfg.entry_of_find hf]
    split <;> rfl
  | none =>
    rw [Cfg.entry_of_find_none hf]
    simp [implicitValue, (Cfg.wf_still hw).1]

/-- A CSR that execution does not modify is left by `ImplicitUpdate`. -/
theorem Hart.getCsr_implicitUpdate_none {n : Nat} {h : Hart n} (hw : h.cfg.wf = true) (word : InstrWord)
    (skip : Option CsrNum) {b : CsrNum} (hb : (h.cfg.entry b).implicit = .none) :
    (h.implicitUpdate word skip).getCsr b = h.getCsr b := by
  rw [Hart.getCsr_implicitUpdate hw]
  simp [implicitValue, hb]

/-- `ImplicitUpdate` leaves the CSR in `skip`. -/
theorem Hart.getCsr_implicitUpdate_skip {n : Nat} {h : Hart n} (hw : h.cfg.wf = true) (word : InstrWord)
    (a : CsrNum) : (h.implicitUpdate word (some a)).getCsr a = h.getCsr a := by
  rw [Hart.getCsr_implicitUpdate hw]; simp

/-- A retired-instruction counter not in `skip` counts, modulo `2^W`. -/
theorem Hart.getCsr_implicitUpdate_count {n : Nat} {h : Hart n} (hw : h.cfg.wf = true) (word : InstrWord)
    {skip : Option CsrNum} {c : CsrNum} (hc : (h.cfg.entry c).implicit = .count) (hs : skip ≠ some c) :
    (h.implicitUpdate word skip).getCsr c = clip (h.cfg.entry c).width (h.getCsr c + 1#n) := by
  rw [Hart.getCsr_implicitUpdate hw]
  simp [implicitValue, hc, hs]

/-! ## The environment's step -/

/-- Nothing environment-affected: the environment has no step. -/
theorem Hart.envStep_inactive {n : Nat} {h : Hart n} (hi : Cfg.envActive h.cfg = false) : h.envStep = h := by
  simp [Hart.envStep, hi]

@[simp] theorem Hart.envStep_x {n : Nat} (h : Hart n) : h.envStep.x = h.x := by
  unfold Hart.envStep; split
  · exact (Hart.Kept.updateEach _ _ h).x
  · rfl

@[simp] theorem Hart.envStep_pc {n : Nat} (h : Hart n) : h.envStep.pc = h.pc := by
  unfold Hart.envStep; split
  · exact (Hart.Kept.updateEach _ _ h).pc
  · rfl

@[simp] theorem Hart.envStep_cfg {n : Nat} (h : Hart n) : h.envStep.cfg = h.cfg := by
  unfold Hart.envStep; split
  · exact (Hart.Kept.updateEach _ _ h).cfg
  · rfl

@[simp] theorem Hart.envStep_prog {n : Nat} (h : Hart n) : h.envStep.prog = h.prog := by
  unfold Hart.envStep; split
  · exact (Hart.Kept.updateEach _ _ h).prog
  · rfl

@[simp] theorem Hart.envStep_history {n : Nat} (h : Hart n) : h.envStep.history = h.history := by
  unfold Hart.envStep; split
  · exact (Hart.Kept.updateEach _ _ h).history
  · rfl

@[simp] theorem Hart.envStep_raised {n : Nat} (h : Hart n) : h.envStep.raised = h.raised := by
  unfold Hart.envStep; split
  · exact (Hart.Kept.updateEach _ _ h).raised
  · rfl

/-- A CSR the environment does not affect is left by its step. -/
theorem Hart.getCsr_envStep_other {n : Nat} {h : Hart n} (hw : h.cfg.wf = true) {b : CsrNum}
    (hb : (h.cfg.entry b).envAffected = false) : h.envStep.getCsr b = h.getCsr b := by
  unfold Hart.envStep
  split
  · show (Hart.updateEach (envValue h) h.cfg.listed h).getCsr b = h.getCsr b
    rw [Hart.getCsr_updateEach _ (Cfg.wf_rising hw)]
    cases hf : findEntry h.cfg.listed b with
    | some e =>
      rw [Cfg.entry_of_find hf] at hb
      simp [envValue, hb]
    | none => rfl
  · rfl

/-! ## The canonical storage and the widths, kept by every operation -/

theorem Hart.file_updateEach {n : Nat} (f : CsrNum → CsrEntry n → Option (BitVec n))
    (l : List (CsrNum × CsrEntry n)) {h : Hart n} (hf : csrFileWf h.cfg h.csr) :
    csrFileWf (Hart.updateEach f l h).cfg (Hart.updateEach f l h).csr := by
  induction l generalizing h with
  | nil => exact hf
  | cons p t ih =>
    obtain ⟨b, e⟩ := p
    simp only [Hart.updateEach]
    apply ih
    split
    · exact csrFileWf_setCsr hf b _
    · exact hf

theorem Hart.file_applyPokes {n : Nat} (skip : Option CsrNum) (l : List (CsrNum × BitVec n)) {h : Hart n}
    (hf : csrFileWf h.cfg h.csr) :
    csrFileWf (Hart.applyPokes skip l h).cfg (Hart.applyPokes skip l h).csr := by
  induction l generalizing h with
  | nil => exact hf
  | cons p t ih =>
    obtain ⟨b, v⟩ := p
    simp only [Hart.applyPokes]
    apply ih
    split
    · exact hf
    · exact csrFileWf_setCsr hf b _

/-- A bit of a CSR that is not writable is left by side effects under no law. -/
theorem Hart.getCsr_applyPokes_fixed {n : Nat} (skip : Option CsrNum) (l : List (CsrNum × BitVec n)) (h : Hart n)
    (b : CsrNum) (i : Nat) (hb : (h.csrMask b).getLsbD i = false) :
    ((Hart.applyPokes skip l h).getCsr b).getLsbD i = (h.getCsr b).getLsbD i := by
  induction l generalizing h with
  | nil => rfl
  | cons p t ih =>
    obtain ⟨c, v⟩ := p
    simp only [Hart.applyPokes]
    split
    · exact ih h hb
    · rw [ih]
      · rw [Hart.getCsr_setCsr]
        split
        · next e => subst e; rw [getLsbD_mergeBits, hb]; rfl
        · rfl
      · exact hb

/-- Side effects under no law leave the CSR in `skip`. -/
theorem Hart.getCsr_applyPokes_skip {n : Nat} (a : CsrNum) (l : List (CsrNum × BitVec n)) (h : Hart n) :
    (Hart.applyPokes (some a) l h).getCsr a = h.getCsr a := by
  induction l generalizing h with
  | nil => rfl
  | cons p t ih =>
    obtain ⟨c, v⟩ := p
    simp only [Hart.applyPokes]
    rw [ih]
    split
    · rfl
    · next hne =>
      exact h.getCsr_setCsr_other (fun e => hne (by rw [e])) _

/-! ## The interface of one CSR -/

/-- A read with no side effect. -/
theorem Hart.csrRead_none {n : Nat} {h : Hart n} {a : CsrNum} (hr : (h.cfg.entry a).onRead = .none) :
    h.csrRead a = (clip (h.cfg.entry a).width (h.getCsr a), h) := by
  unfold Hart.csrRead; rw [hr]

theorem Hart.csrRead_bulbOn {n : Nat} {h : Hart n} {a : CsrNum} (hr : (h.cfg.entry a).onRead = .bulbOn) :
    h.csrRead a = (clip (h.cfg.entry a).width (h.getCsr a), h.setBulb true) := by
  unfold Hart.csrRead; rw [hr]

/-- The value of a read that is not under no law: the CSR's, zero-extended from its width. -/
theorem Hart.csrRead_value {n : Nat} {h : Hart n} {a : CsrNum} (hr : (h.cfg.entry a).onRead ≠ .free) :
    (h.csrRead a).1 = clip (h.cfg.entry a).width (h.getCsr a) := by
  unfold Hart.csrRead
  split
  · rfl
  · rfl
  · contradiction

/-- A read that is not under no law leaves every CSR. -/
theorem Hart.csrRead_getCsr {n : Nat} {h : Hart n} {a : CsrNum} (hr : (h.cfg.entry a).onRead ≠ .free)
    (b : CsrNum) : (h.csrRead a).2.getCsr b = h.getCsr b := by
  unfold Hart.csrRead
  split
  · rfl
  · rfl
  · contradiction

/-- Every value read is within the CSR's width. -/
theorem Hart.clip_csrRead {n : Nat} (h : Hart n) (a : CsrNum) :
    clip (h.cfg.entry a).width (h.csrRead a).1 = (h.csrRead a).1 := by
  unfold Hart.csrRead
  split <;> simp

/-- A write that only stores. -/
theorem Hart.csrWrite_none {n : Nat} {h : Hart n} {a : CsrNum} (hw : (h.cfg.entry a).onWrite = .none)
    (v em : BitVec n) : h.csrWrite a v em = h.storeCsr a v em := by
  unfold Hart.csrWrite; rw [hw]

/-- What a write that is not under no law leaves in a CSR. -/
theorem Hart.csrWrite_getCsr {n : Nat} {h : Hart n} {a : CsrNum} (hw : (h.cfg.entry a).onWrite ≠ .free)
    (v em : BitVec n) (b : CsrNum) :
    (h.csrWrite a v em).getCsr b =
      if b = a then mergeBits (h.getCsr a) v (em &&& h.csrMask a) else h.getCsr b := by
  have hs : (h.storeCsr a v em).getCsr b =
      if b = a then mergeBits (h.getCsr a) v (em &&& h.csrMask a) else h.getCsr b :=
    h.getCsr_setCsr a b _
  unfold Hart.csrWrite
  split
  · exact hs
  · split
    · exact hs
    · exact hs
  · contradiction

/-- No write changes a bit of any CSR that is not writable. -/
theorem Hart.csrWrite_fixed {n : Nat} (h : Hart n) (a : CsrNum) (v em : BitVec n) (b : CsrNum) (i : Nat)
    (hb : (h.csrMask b).getLsbD i = false) :
    ((h.csrWrite a v em).getCsr b).getLsbD i = (h.getCsr b).getLsbD i := by
  have hs : ∀ w m : BitVec n, ((h.storeCsr a w m).getCsr b).getLsbD i = (h.getCsr b).getLsbD i := by
    intro w m
    unfold Hart.storeCsr
    rw [Hart.getCsr_setCsr]
    split
    · next e =>
      subst e
      rw [getLsbD_mergeBits, BitVec.getLsbD_and, hb]
      simp
    · rfl
  unfold Hart.csrWrite
  split
  · exact hs _ _
  · split
    · exact hs _ _
    · exact hs _ _
  · show ((Hart.applyPokes _ _ _).getCsr b).getLsbD i = _
    rw [Hart.getCsr_applyPokes_fixed]
    · exact hs _ _
    · exact hb

/-- No read changes a bit of any CSR that is not writable. -/
theorem Hart.csrRead_fixed {n : Nat} (h : Hart n) (a b : CsrNum) (i : Nat)
    (hb : (h.csrMask b).getLsbD i = false) :
    ((h.csrRead a).2.getCsr b).getLsbD i = (h.getCsr b).getLsbD i := by
  unfold Hart.csrRead
  split
  · rfl
  · rfl
  · exact Hart.getCsr_applyPokes_fixed _ _ _ _ _ hb

end Sys2Proof.Machine
end

