-- ==== Sys2Proof/Laws/Decode.lean ====
section
/-! SUPPORT. The fields of an encoded word, and the bytes of a word: each field of `encodeFields` is read back by
its own accessor. -/

namespace Sys2Proof

section Fields

variable (f : BitVec 3) (rd : RegNum) (a : CsrNum) (r : BitVec 5)

@[simp] theorem opcodeField_encodeFields : opcodeField (encodeFields f rd a r) = opcodeSystem := by
  apply BitVec.eq_of_getLsbD_eq
  intro i hi
  simp only [opcodeField, encodeFields, BitVec.getLsbD_extractLsb', BitVec.getLsbD_append]
  simp [hi]

@[simp] theorem rdField_encodeFields : rdField (encodeFields f rd a r) = rd := by
  apply BitVec.eq_of_getLsbD_eq
  intro i hi
  simp only [rdField, encodeFields, BitVec.getLsbD_extractLsb', BitVec.getLsbD_append]
  have h1 : ¬ 7 + i < 7 := by omega
  have h2 : 7 + i - 7 < 5 := by omega
  simp only [h1, h2, hi, if_true, if_false, decide_true, Bool.true_and]
  simp [hi]

@[simp] theorem funct3Field_encodeFields : funct3Field (encodeFields f rd a r) = f := by
  apply BitVec.eq_of_getLsbD_eq
  intro i hi
  simp only [funct3Field, encodeFields, BitVec.getLsbD_extractLsb', BitVec.getLsbD_append]
  have h1 : ¬ 12 + i < 7 := by omega
  have h2 : ¬ 12 + i - 7 < 5 := by omega
  have h3 : 12 + i - 7 - 5 = i := by omega
  simp [h1, h2, h3, hi]

@[simp] theorem rs1Field_encodeFields : rs1Field (encodeFields f rd a r) = r := by
  apply BitVec.eq_of_getLsbD_eq
  intro i hi
  simp only [rs1Field, encodeFields, BitVec.getLsbD_extractLsb', BitVec.getLsbD_append]
  have h1 : ¬ 15 + i < 7 := by omega
  have h2 : ¬ 15 + i - 7 < 5 := by omega
  have h3 : 15 + i - 7 - 5 - 3 = i := by omega
  have h4 : ¬ 15 + i - 7 - 5 < 3 := by omega
  simp [h1, h2, h3, h4, hi]

@[simp] theorem csrField_encodeFields : csrField (encodeFields f rd a r) = a := by
  apply BitVec.eq_of_getLsbD_eq
  intro i hi
  simp only [csrField, encodeFields, BitVec.getLsbD_extractLsb', BitVec.getLsbD_append]
  have h1 : ¬ 20 + i < 7 := by omega
  have h2 : ¬ 20 + i - 7 < 5 := by omega
  have h3 : 20 + i - 7 - 5 - 3 - 5 = i := by omega
  have h4 : ¬ 20 + i - 7 - 5 < 3 := by omega
  have h5 : ¬ 20 + i - 7 - 5 - 3 < 5 := by omega
  simp [h1, h2, h3, h4, h5, hi]

end Fields

/-- A word is the five fields it holds. -/
theorem encodeFields_of_fields {w : InstrWord} (ho : opcodeField w = opcodeSystem) :
    encodeFields (funct3Field w) (rdField w) (csrField w) (rs1Field w) = w := by
  rw [encodeFields, ← ho]
  apply BitVec.eq_of_getLsbD_eq
  intro i hi
  simp only [opcodeField, rdField, funct3Field, rs1Field, csrField, BitVec.getLsbD_extractLsb',
    BitVec.getLsbD_append]
  split
  · simp [*]
  · split
    · have : 7 + (i - 7) = i := by omega
      simp [*]
    · split
      · have : 12 + (i - 7 - 5) = i := by omega
        simp [*]
      · split
        · have : 15 + (i - 7 - 5 - 3) = i := by omega
          simp [*]
        · have h1 : 20 + (i - 7 - 5 - 3 - 5) = i := by omega
          have h2 : i - 7 - 5 - 3 - 5 < 12 := by omega
          simp [h1, h2]

/-- The bytes of a word, put together, are the word. -/
theorem wordOfBytes_bytesOfWord (w : InstrWord) :
    wordOfBytes (w.extractLsb' 0 8) (w.extractLsb' 8 8) (w.extractLsb' 16 8) (w.extractLsb' 24 8) = w := by
  apply BitVec.eq_of_getLsbD_eq
  intro i hi
  simp only [wordOfBytes, BitVec.getLsbD_extractLsb', BitVec.getLsbD_append]
  split
  · simp [*]
  · split
    · have : 8 + (i - 8) = i := by omega
      simp [*]
    · split
      · have : 16 + (i - 8 - 8) = i := by omega
        simp [*]
      · have h1 : 24 + (i - 8 - 8 - 8) = i := by omega
        have h2 : i - 8 - 8 - 8 < 8 := by omega
        simp [h1, h2]

/-- Decoding the bytes of a word is decoding the word. -/
theorem decode_bytesOfWord (w : InstrWord) (rest : List Byte) :
    decode (bytesOfWord w ++ rest) =
      match decodeWord w with
      | some i => .instr i
      | none => .notZicsr w := by
  cases hd : decodeWord w <;> simp [bytesOfWord, decode, wordOfBytes_bytesOfWord, hd]

end Sys2Proof
end

