-- ==== Sys2Proof/Laws/Exec.lean ====
section
/-! SUPPORT. `ExecCsr`, said once: when it raises, when it answers a next state, and what that state holds. -/

namespace Sys2Proof.Machine

/-! ## The two predicates of the table -/

@[simp] theorem readsCsr_write (rd : RegNum) : readsCsr .write rd = decide (rd ≠ 0#5) := by simp [readsCsr]
@[simp] theorem readsCsr_set (rd : RegNum) : readsCsr .set rd = true := by simp [readsCsr]
@[simp] theorem readsCsr_clear (rd : RegNum) : readsCsr .clear rd = true := by simp [readsCsr]
@[simp] theorem writesCsr_write (r : BitVec 5) : writesCsr .write r = true := by simp [writesCsr]
@[simp] theorem writesCsr_set (r : BitVec 5) : writesCsr .set r = decide (r ≠ 0#5) := by simp [writesCsr]
@[simp] theorem writesCsr_clear (r : BitVec 5) : writesCsr .clear r = decide (r ≠ 0#5) := by simp [writesCsr]

@[simp] theorem Operand.field_reg (r : RegNum) : (Operand.reg r).field = r := rfl
@[simp] theorem Operand.field_imm (u : Uimm) : (Operand.imm u).field = u := rfl
@[simp] theorem Operand.value_reg {n : Nat} (h : Hart n) (r : RegNum) : (Operand.reg r).value h = h.readReg r := rfl
@[simp] theorem Operand.value_imm {n : Nat} (h : Hart n) (u : Uimm) : (Operand.imm u).value h = zext n u := rfl

/-! ## What each instruction is an instance of -/

/-- Every instruction is `ExecCsr` at its operation and operands. -/
theorem exec_eq_execCsr (i : Instr) (s : State) :
    exec i s = execCsr (encode i) (opOf i) (srcOf i) (rdOf i) (csrOf i) s := by
  cases i <;> rfl

/-! ## The two outcomes of `ExecCsr` -/

theorem execCsr_raises {n : Nat} {h : Hart n} {op : CsrOp} {src : Operand} {a : CsrNum}
    (hr : h.csrRaises op src a = true) (word : InstrWord) (rd : RegNum) :
    execCsr word op src rd a ⟨n, h⟩ = h.raise .illegalInstruction word := by
  simp [execCsr, hr]

theorem execCsr_next {n : Nat} {h : Hart n} {op : CsrOp} {src : Operand} {a : CsrNum}
    (hr : h.csrRaises op src a = false) (word : InstrWord) (rd : RegNum) :
    execCsr word op src rd a ⟨n, h⟩ = .next ⟨n, h.csrNext word op src rd a⟩ := by
  simp [execCsr, hr]

theorem Hart.csrRaises_eq_false {n : Nat} {h : Hart n} {op : CsrOp} {src : Operand} {a : CsrNum} :
    h.csrRaises op src a = false ↔
      h.csrAccessible a = true ∧ (writesCsr op src.field = true → h.csrReadOnly a = false) := by
  unfold Hart.csrRaises
  cases h.csrAccessible a <;> cases writesCsr op src.field <;> cases h.csrReadOnly a <;> simp

theorem Hart.raise_stop {n : Nat} {h : Hart n} (hs : h.cfg.onTrap = .stop) (c : Cause) (word : InstrWord) :
    h.raise c word = .fault (.trap c h.pc.toNat word) := by
  unfold Hart.raise; rw [hs]

theorem Hart.raise_enter {n : Nat} {h : Hart n} (hs : h.cfg.onTrap = .enter) (c : Cause) (word : InstrWord) :
    h.raise c word = .next ⟨n, h.enterTrap c word⟩ := by
  unfold Hart.raise; rw [hs]

/-- `ExecCsr` answers a next state in two ways only: it completes, or it raises and `TrapEntry` is given. -/
theorem execCsr_cases {n : Nat} {h : Hart n} {word : InstrWord} {op : CsrOp} {src : Operand} {rd : RegNum}
    {a : CsrNum} {t : State} (hx : execCsr word op src rd a ⟨n, h⟩ = .next t) :
    (h.csrRaises op src a = false ∧ t = ⟨n, h.csrNext word op src rd a⟩) ∨
    (h.csrRaises op src a = true ∧ h.cfg.onTrap = .enter ∧ t = ⟨n, h.enterTrap .illegalInstruction word⟩) := by
  cases hr : h.csrRaises op src a with
  | false =>
    rw [execCsr_next hr] at hx
    cases hx
    exact .inl ⟨rfl, rfl⟩
  | true =>
    rw [execCsr_raises hr] at hx
    cases ht : h.cfg.onTrap with
    | stop => rw [Hart.raise_stop ht] at hx; cases hx
    | enter => rw [Hart.raise_enter ht] at hx; cases hx; exact .inr ⟨rfl, rfl, rfl⟩

/-! ## The phases -/

theorem Hart.Kept.readPhase {n : Nat} (h : Hart n) (reads : Bool) (a : CsrNum) : h.Kept (h.readPhase reads a).2 := by
  unfold Hart.readPhase; split
  · exact .csrRead h a
  · exact .refl h

theorem Hart.Kept.writePhase {n : Nat} (h : Hart n) (writes : Bool) (a : CsrNum) (v em : BitVec n) :
    h.Kept (h.writePhase writes a v em) := by
  unfold Hart.writePhase; split
  · exact .csrWrite h a v em
  · exact .refl h

theorem Hart.Kept.csrEffects {n : Nat} (h : Hart n) (word : InstrWord) (op : CsrOp) (src : Operand)
    (rd : RegNum) (a : CsrNum) : h.Kept (h.csrEffects word op src rd a) :=
  ((Hart.Kept.readPhase h _ a).trans (.writePhase _ _ a _ _)).trans (.implicitUpdate _ _ _)

/-- The destination register is the only thing step 6 writes. -/
theorem Hart.destPhase_eq {n : Nat} (h : Hart n) (rd : RegNum) (t : Option (BitVec n)) :
    ∃ x, h.destPhase rd t = { h with x := x } := by
  cases t with
  | none => exact ⟨h.x, rfl⟩
  | some v =>
    simp only [Hart.destPhase, Hart.writeReg]
    split
    · exact ⟨h.x, rfl⟩
    · exact ⟨_, rfl⟩

section Next

variable {n : Nat} (h : Hart n) (word : InstrWord) (op : CsrOp) (src : Operand) (rd : RegNum) (a : CsrNum)

@[simp] theorem Hart.csrNext_pc : (h.csrNext word op src rd a).pc = h.pc + 4#n := rfl

@[simp] theorem Hart.csrNext_history :
    (h.csrNext word op src rd a).history = h.accessOf op src rd a :: h.history := rfl

@[simp] theorem Hart.csrNext_raised : (h.csrNext word op src rd a).raised = none := rfl

@[simp] theorem Hart.csrNext_cfg : (h.csrNext word op src rd a).cfg = h.cfg := by
  obtain ⟨x, hx⟩ := (h.csrEffects word op src rd a).destPhase_eq rd (h.readPhase (readsCsr op rd) a).1
  simp only [Hart.csrNext, hx]
  exact (Hart.Kept.csrEffects h word op src rd a).cfg

@[simp] theorem Hart.csrNext_prog : (h.csrNext word op src rd a).prog = h.prog := by
  obtain ⟨x, hx⟩ := (h.csrEffects word op src rd a).destPhase_eq rd (h.readPhase (readsCsr op rd) a).1
  simp only [Hart.csrNext, hx]
  exact (Hart.Kept.csrEffects h word op src rd a).prog

@[simp] theorem Hart.csrNext_draws : (h.csrNext word op src rd a).draws = h.draws := by
  obtain ⟨x, hx⟩ := (h.csrEffects word op src rd a).destPhase_eq rd (h.readPhase (readsCsr op rd) a).1
  simp only [Hart.csrNext, hx]
  exact (Hart.Kept.csrEffects h word op src rd a).draws

theorem Hart.csrNext_csr : (h.csrNext word op src rd a).csr = (h.csrEffects word op src rd a).csr := by
  obtain ⟨x, hx⟩ := (h.csrEffects word op src rd a).destPhase_eq rd (h.readPhase (readsCsr op rd) a).1
  simp only [Hart.csrNext, hx]

theorem Hart.csrNext_env : (h.csrNext word op src rd a).env = (h.csrEffects word op src rd a).env := by
  obtain ⟨x, hx⟩ := (h.csrEffects word op src rd a).destPhase_eq rd (h.readPhase (readsCsr op rd) a).1
  simp only [Hart.csrNext, hx]

theorem Hart.csrNext_getCsr (b : CsrNum) :
    (h.csrNext word op src rd a).getCsr b = (h.csrEffects word op src rd a).getCsr b := by
  unfold Hart.getCsr; rw [Hart.csrNext_csr]

/-- The registers after: `rd` holds the value read, every other register is left. -/
theorem Hart.csrNext_x :
    (h.csrNext word op src rd a).x = (h.destPhase rd (h.readPhase (readsCsr op rd) a).1).x := by
  have hk := (Hart.Kept.csrEffects h word op src rd a).x
  unfold Hart.csrNext Hart.destPhase
  split
  · simp only [Hart.writeReg]
    split <;> simp [hk]
  · exact hk

theorem Hart.csrNext_readReg (j : RegNum) :
    (h.csrNext word op src rd a).readReg j =
      (h.destPhase rd (h.readPhase (readsCsr op rd) a).1).readReg j :=
  Hart.readReg_congr (h.csrNext_x word op src rd a) j

/-- Every register but `rd` is left. -/
theorem Hart.csrNext_readReg_other {j : RegNum} (hj : j ≠ rd) :
    (h.csrNext word op src rd a).readReg j = h.readReg j := by
  rw [Hart.csrNext_readReg]
  cases (h.readPhase (readsCsr op rd) a).1 with
  | none => rfl
  | some v => exact h.readReg_writeReg_other hj v

/-- What the instruction leaves in a CSR, where neither the read nor the write is under no law. -/
theorem Hart.csrNext_getCsr_settled (hw : h.cfg.wf = true) (hr : (h.cfg.entry a).onRead ≠ .free)
    (hn : (h.cfg.entry a).onWrite ≠ .free) (b : CsrNum) (hb : (h.cfg.entry b).implicit ≠ .free) :
    (h.csrNext word op src rd a).getCsr b =
      let stored := if b = a ∧ writesCsr op src.field = true
        then mergeBits (h.getCsr a) (writtenValue op (h.readPhase (readsCsr op rd) a).1 (src.value h))
              (explicitMask op (src.value h) &&& h.csrMask a)
        else h.getCsr b
      if (h.cfg.entry b).implicit = .count ∧ ¬ (b = a ∧ writesCsr op src.field = true)
        then clip (h.cfg.entry b).width (h.getCsr b + 1#n)
        else stored := by
  rw [Hart.csrNext_getCsr]
  unfold Hart.csrEffects
  have hk1 := Hart.Kept.readPhase h (readsCsr op rd) a
  have hg1 : ∀ c, (h.readPhase (readsCsr op rd) a).2.getCsr c = h.getCsr c := by
    intro c
    unfold Hart.readPhase
    split
    · exact Hart.csrRead_getCsr hr c
    · rfl
  generalize h.readPhase (readsCsr op rd) a = r at hk1 hg1
  have hk2 := Hart.Kept.writePhase r.2 (writesCsr op src.field) a (writtenValue op r.1 (src.value h))
    (explicitMask op (src.value h))
  have hg2 : ∀ c, (r.2.writePhase (writesCsr op src.field) a (writtenValue op r.1 (src.value h))
      (explicitMask op (src.value h))).getCsr c =
      if c = a ∧ writesCsr op src.field = true
        then mergeBits (h.getCsr a) (writtenValue op r.1 (src.value h)) (explicitMask op (src.value h) &&& h.csrMask a)
        else h.getCsr c := by
    intro c
    unfold Hart.writePhase
    cases writesCsr op src.field with
    | false => simp [hg1]
    | true =>
      simp only [if_true, and_true]
      rw [Hart.csrWrite_getCsr (by rw [hk1.cfg]; exact hn), hg1, hg1]
      simp only [Hart.csrMask, hk1.cfg]
  dsimp only
  generalize r.2.writePhase _ a _ _ = k at hk2 hg2
  have hc : k.cfg = h.cfg := hk2.cfg.trans hk1.cfg
  rw [Hart.getCsr_implicitUpdate (by rw [hc]; exact hw), hc, hg2]
  unfold skipOf implicitValue
  cases hs : writesCsr op src.field with
  | false =>
    cases hi : (h.cfg.entry b).implicit with
    | none => simp
    | count => simp [hg2, hs]
    | free => exact absurd hi hb
  | true =>
    by_cases e : b = a
    · simp [e]
    · have e' : ¬ a = b := fun h => e h.symm
      cases hi : (h.cfg.entry b).implicit with
      | none => simp [e, e']
      | count => simp [hg2, e, e']
      | free => exact absurd hi hb

end Next

end Sys2Proof.Machine
end

