-- ==== Sys2Proof/Laws/PerInstr.lean ====
section
/-! SUPPORT. Statements about every instruction as syntax, one lemma per constructor. -/

namespace Sys2Proof.Laws.MatchAndMask

/-- The match and mask of the opcode table (30_encoding.md R57): under the mask `0x0000707F` the word of an
instruction is its row's match; and the instruction is well formed (R58). -/
def Statement (i : Instr) : Prop :=
  i.wf = true ∧
  encode i &&& 0x0000707F#32 =
    match i with
    | .csrrw _ _ _ => 0x00001073#32
    | .csrrs _ _ _ => 0x00002073#32
    | .csrrc _ _ _ => 0x00003073#32
    | .csrrwi _ _ _ => 0x00005073#32
    | .csrrsi _ _ _ => 0x00006073#32
    | .csrrci _ _ _ => 0x00007073#32

/-- Under the mask only `funct3` and `opcode` are left. -/
theorem masked (f : BitVec 3) (rd : RegNum) (a : CsrNum) (r : BitVec 5) :
    encodeFields f rd a r &&& 0x0000707F#32 = encodeFields f 0#5 0#12 0#5 := by
  apply BitVec.eq_of_getLsbD_eq
  intro i hi
  simp only [encodeFields, BitVec.getLsbD_and, BitVec.getLsbD_append]
  have hm : ∀ k < 32, (0x0000707F#32).getLsbD k = (decide (k < 7) || (decide (12 ≤ k) && decide (k < 15))) := by
    decide
  rw [hm i hi]
  split
  · next h => simp only [decide_eq_true h, Bool.true_or, Bool.and_true]
  · next h =>
    split
    · next h2 =>
      have : ¬ 12 ≤ i := by omega
      simp [h, this]
    · next h2 =>
      split
      · next h3 =>
        have h12 : 12 ≤ i := by omega
        have h15 : i < 15 := by omega
        simp [h12, h15]
      · next h3 =>
        have : ¬ i < 15 := by omega
        simp [h, this]

theorem csrrw (rd : RegNum) (csr : CsrNum) (rs1 : RegNum) : Statement (.csrrw rd csr rs1) :=
  ⟨rfl, masked 0b001#3 rd csr rs1⟩

theorem csrrs (rd : RegNum) (csr : CsrNum) (rs1 : RegNum) : Statement (.csrrs rd csr rs1) :=
  ⟨rfl, masked 0b010#3 rd csr rs1⟩

theorem csrrc (rd : RegNum) (csr : CsrNum) (rs1 : RegNum) : Statement (.csrrc rd csr rs1) :=
  ⟨rfl, masked 0b011#3 rd csr rs1⟩

theorem csrrwi (rd : RegNum) (csr : CsrNum) (uimm : Uimm) : Statement (.csrrwi rd csr uimm) :=
  ⟨rfl, masked 0b101#3 rd csr uimm⟩

theorem csrrsi (rd : RegNum) (csr : CsrNum) (uimm : Uimm) : Statement (.csrrsi rd csr uimm) :=
  ⟨rfl, masked 0b110#3 rd csr uimm⟩

theorem csrrci (rd : RegNum) (csr : CsrNum) (uimm : Uimm) : Statement (.csrrci rd csr uimm) :=
  ⟨rfl, masked 0b111#3 rd csr uimm⟩

end Sys2Proof.Laws.MatchAndMask
end

