-- ==== Sys2Proof/Laws/Step.lean ====
section
/-! SUPPORT. One step, said once: the ways it answers a next state; fetching; the invariant's parts under each
operation. -/

namespace Sys2Proof.Machine

/-! ## Fetching -/

theorem Memory.readWord_eq_some {m : Memory} {a : Nat} {w : InstrWord} :
    m.readWord a = some w ↔
      ∃ b0 b1 b2 b3, m.read a = some b0 ∧ m.read (a + 1) = some b1 ∧ m.read (a + 2) = some b2 ∧
        m.read (a + 3) = some b3 ∧ wordOfBytes b0 b1 b2 b3 = w := by
  unfold Memory.readWord
  constructor
  · intro h
    split at h
    · next b0 b1 b2 b3 h0 h1 h2 h3 =>
      exact ⟨b0, b1, b2, b3, h0, h1, h2, h3, Option.some.inj h⟩
    · cases h
  · rintro ⟨b0, b1, b2, b3, h0, h1, h2, h3, rfl⟩
    simp only [h0, h1, h2, h3]

/-- A word written as bytes is read back. -/
theorem Memory.readWord_writeBytes (m : Memory) (a : Nat) (w : InstrWord) :
    (m.writeBytes a (bytesOfWord w)).readWord a = some w := by
  rw [Memory.readWord_eq_some]
  refine ⟨_, _, _, _, ?_, ?_, ?_, ?_, wordOfBytes_bytesOfWord w⟩ <;>
    simp only [bytesOfWord, Memory.writeBytes, Memory.read_write_same,
      Memory.read_write_other _ (show a ≠ a + 1 by omega),
      Memory.read_write_other _ (show a ≠ a + 1 + 1 by omega),
      Memory.read_write_other _ (show a ≠ a + 1 + 1 + 1 by omega),
      Memory.read_write_other _ (show a + 1 ≠ a + 1 + 1 by omega),
      Memory.read_write_other _ (show a + 1 ≠ a + 1 + 1 + 1 by omega),
      Memory.read_write_other _ (show a + 1 + 1 ≠ a + 1 + 1 + 1 by omega)]

theorem Hart.fetch_eq_some {n : Nat} {h : Hart n} {w : InstrWord} :
    h.fetch = some w ↔ h.pc.toNat % 4 = 0 ∧ h.prog.readWord h.pc.toNat = some w := by
  unfold Hart.fetch
  split <;> simp [*]

theorem toNat_alignedPc {n : Nat} (pc : BitVec n) : (alignedPc pc).toNat = pc.toNat - pc.toNat % 4 := by
  have := pc.isLt
  simp only [alignedPc, BitVec.toNat_ofNat]
  exact Nat.mod_eq_of_lt (by omega)

theorem alignedPc_mod (n : Nat) (pc : BitVec n) : (alignedPc pc).toNat % 4 = 0 := by
  rw [toNat_alignedPc]; omega

/-- The instruction placed is the one fetched. -/
theorem Hart.fetch_withFetchWord {n : Nat} (h : Hart n) (w : InstrWord) :
    (h.withFetchWord w).fetch = some w := by
  rw [Hart.fetch_eq_some]
  exact ⟨alignedPc_mod n h.pc, Memory.readWord_writeBytes _ _ w⟩

/-! ## One instruction -/

theorem not_raises_iff {n : Nat} {h : Hart n} {i : Instr} :
    ¬ Raises h i ↔ h.csrRaises (opOf i) (srcOf i) (csrOf i) = false := by
  rw [Hart.csrRaises_eq_false]
  unfold Raises
  cases h.csrAccessible (csrOf i) <;> cases writesCsr (opOf i) (srcOf i).field <;>
    cases h.csrReadOnly (csrOf i) <;> simp

/-- An instruction that does not raise completes. -/
theorem exec_of_not_raises {n : Nat} {h : Hart n} {i : Instr} (hr : ¬ Raises h i) :
    exec i ⟨n, h⟩ = .next ⟨n, h.csrNext (encode i) (opOf i) (srcOf i) (rdOf i) (csrOf i)⟩ := by
  rw [exec_eq_execCsr, execCsr_next (not_raises_iff.1 hr)]

/-- An instruction that raises takes the exception. -/
theorem exec_of_raises {n : Nat} {h : Hart n} {i : Instr} (hr : Raises h i) :
    exec i ⟨n, h⟩ = h.raise .illegalInstruction (encode i) := by
  have : h.csrRaises (opOf i) (srcOf i) (csrOf i) = true := by
    by_contra hc
    exact not_raises_iff.2 (Bool.eq_false_iff.2 hc) hr
  rw [exec_eq_execCsr, execCsr_raises this]

/-! ## One step -/

@[simp] theorem afterEnv_next {n : Nat} (h : Hart n) :
    afterEnv (.next ⟨n, h⟩) = .next ⟨n, h.envStep⟩ := rfl

@[simp] theorem afterEnv_fault (r : Fault) : afterEnv (.fault r) = .fault r := rfl

@[simp] theorem afterEnv_refused (r : Refusal) : afterEnv (.refused r) = .refused r := rfl

/-- A step of the hart answers a next state in two ways only: an instruction was fetched and decoded, and it completed,
or it raised and `TrapEntry` is given. -/
theorem hartStep_cases {n : Nat} {h : Hart n} {t : State} (hx : hartStep ⟨n, h⟩ = .next t) :
    h.cfg.wf = true ∧ ∃ w i, h.fetch = some w ∧ decodeWord w = some i ∧
      ((h.csrRaises (opOf i) (srcOf i) (csrOf i) = false ∧
          t = ⟨n, h.csrNext (encode i) (opOf i) (srcOf i) (rdOf i) (csrOf i)⟩) ∨
       (h.csrRaises (opOf i) (srcOf i) (csrOf i) = true ∧ h.cfg.onTrap = .enter ∧
          t = ⟨n, h.enterTrap .illegalInstruction (encode i)⟩)) := by
  unfold hartStep at hx
  split at hx
  · next hw =>
    refine ⟨hw, ?_⟩
    split at hx
    · cases hx
    · next w hf =>
      split at hx
      · cases hx
      · next i hd =>
        rw [exec_eq_execCsr] at hx
        exact ⟨w, i, hf, hd, execCsr_cases hx⟩
  · cases hx

/-- A step is a step of the hart and then the environment's move. -/
theorem step_next {s t : State} (hx : step s = .next t) :
    ∃ u, hartStep s = .next u ∧ t = ⟨u.xlen, u.hart.envStep⟩ := by
  unfold step at hx
  cases hs : hartStep s with
  | next u => rw [hs] at hx; cases hx; exact ⟨u, rfl, rfl⟩
  | fault r => rw [hs] at hx; cases hx
  | refused r => rw [hs] at hx; cases hx

/-- What a step that answers a next state did: one instruction, and then the environment moved. -/
theorem step_cases {n : Nat} {h : Hart n} {t : State} (hx : step ⟨n, h⟩ = .next t) :
    h.cfg.wf = true ∧ ∃ w i, h.fetch = some w ∧ decodeWord w = some i ∧
      ((h.csrRaises (opOf i) (srcOf i) (csrOf i) = false ∧
          t = ⟨n, (h.csrNext (encode i) (opOf i) (srcOf i) (rdOf i) (csrOf i)).envStep⟩) ∨
       (h.csrRaises (opOf i) (srcOf i) (csrOf i) = true ∧ h.cfg.onTrap = .enter ∧
          t = ⟨n, (h.enterTrap .illegalInstruction (encode i)).envStep⟩)) := by
  obtain ⟨u, hu, rfl⟩ := step_next hx
  obtain ⟨hw, w, i, hf, hd, ⟨hr, rfl⟩ | ⟨hr, he, rfl⟩⟩ := hartStep_cases hu
  · exact ⟨hw, w, i, hf, hd, .inl ⟨hr, rfl⟩⟩
  · exact ⟨hw, w, i, hf, hd, .inr ⟨hr, he, rfl⟩⟩

/-! ## The parts of the invariant -/

theorem foldl_setCsr_kept {n : Nat} (l : List (CsrNum × BitVec n)) (h : Hart n) :
    h.Kept (l.foldl (fun s p => s.setCsr p.1 (clip (s.cfg.entry p.1).width p.2)) h) := by
  induction l generalizing h with
  | nil => exact .refl h
  | cons p t ih => exact (Hart.Kept.setCsr h _ _).trans (ih _)

@[simp] theorem Hart.enterTrap_cfg {n : Nat} (h : Hart n) (c : Cause) (w : InstrWord) :
    (h.enterTrap c w).cfg = h.cfg := (foldl_setCsr_kept _ h).cfg

@[simp] theorem Hart.enterTrap_prog {n : Nat} (h : Hart n) (c : Cause) (w : InstrWord) :
    (h.enterTrap c w).prog = h.prog := (foldl_setCsr_kept _ h).prog

@[simp] theorem Hart.enterTrap_draws {n : Nat} (h : Hart n) (c : Cause) (w : InstrWord) :
    (h.enterTrap c w).draws = h.draws := (foldl_setCsr_kept _ h).draws

@[simp] theorem Hart.enterTrap_history {n : Nat} (h : Hart n) (c : Cause) (w : InstrWord) :
    (h.enterTrap c w).history = h.history := (foldl_setCsr_kept _ h).history

@[simp] theorem Hart.enterTrap_raised {n : Nat} (h : Hart n) (c : Cause) (w : InstrWord) :
    (h.enterTrap c w).raised = some ⟨c, h.pc.toNat, w⟩ := rfl

/-- The storage is canonical and every CSR's value within its width. -/
structure Hart.Stored {n : Nat} (h : Hart n) : Prop where
  file  : csrFileWf h.cfg h.csr
  width : h.inWidth

theorem Hart.Stored.setCsr {n : Nat} {h : Hart n} (hs : h.Stored) {a : CsrNum} {v : BitVec n}
    (hv : clip (h.cfg.entry a).width v = v) : (h.setCsr a v).Stored := by
  refine ⟨csrFileWf_setCsr hs.file a v, fun b => ?_⟩
  show clip (h.cfg.entry b).width ((h.setCsr a v).getCsr b) = (h.setCsr a v).getCsr b
  rw [Hart.getCsr_setCsr]
  split
  · next e => subst e; exact hv
  · exact hs.width b

theorem Hart.Stored.withEnv {n : Nat} {h : Hart n} (hs : h.Stored) (e : Env) : Hart.Stored { h with env := e } :=
  ⟨hs.file, hs.width⟩

theorem Hart.Stored.storeCsr {n : Nat} {h : Hart n} (hs : h.Stored) (hw : h.cfg.wf = true) (a : CsrNum)
    (v em : BitVec n) : (h.storeCsr a v em).Stored :=
  hs.setCsr (clip_mergeBits (hs.width a) (clip_and (Cfg.wf_entry hw a).2))

theorem Hart.Stored.applyPokes {n : Nat} (skip : Option CsrNum) (l : List (CsrNum × BitVec n)) {h : Hart n}
    (hs : h.Stored) (hw : h.cfg.wf = true) : (Hart.applyPokes skip l h).Stored := by
  induction l generalizing h with
  | nil => exact hs
  | cons p t ih =>
    obtain ⟨b, v⟩ := p
    simp only [Hart.applyPokes]
    split
    · exact ih hs hw
    · exact ih (hs.setCsr (clip_mergeBits (hs.width b) (Cfg.wf_entry hw b).2)) hw

theorem Hart.Stored.csrRead {n : Nat} {h : Hart n} (hs : h.Stored) (hw : h.cfg.wf = true) (a : CsrNum) :
    (h.csrRead a).2.Stored := by
  unfold Hart.csrRead
  split
  · exact hs
  · exact hs.withEnv _
  · exact (hs.applyPokes _ _ hw).withEnv _

theorem Hart.Stored.csrWrite {n : Nat} {h : Hart n} (hs : h.Stored) (hw : h.cfg.wf = true) (a : CsrNum)
    (v em : BitVec n) : (h.csrWrite a v em).Stored := by
  unfold Hart.csrWrite
  split
  · exact hs.storeCsr hw a _ _
  · split
    · exact (hs.storeCsr hw a _ _).withEnv _
    · exact hs.storeCsr hw a _ _
  · exact ((hs.storeCsr hw a _ _).applyPokes _ _ hw).withEnv _

theorem Hart.Stored.updateEach {n : Nat} (f : CsrNum → CsrEntry n → Option (BitVec n))
    {l : List (CsrNum × CsrEntry n)} {h : Hart n} (hs : h.Stored)
    (hl : ∀ p ∈ l, h.cfg.entry p.1 = p.2) : (Hart.updateEach f l h).Stored := by
  induction l generalizing h with
  | nil => exact hs
  | cons p t ih =>
    obtain ⟨b, e⟩ := p
    have he : h.cfg.entry b = e := hl _ (.head _)
    have ht : ∀ p ∈ t, h.cfg.entry p.1 = p.2 := fun p hp => hl p (.tail _ hp)
    simp only [Hart.updateEach]
    split
    · exact ih (hs.setCsr (by rw [he]; exact clip_clip _ _)) ht
    · exact ih hs ht

/-- In a list that names each number once, an entry of the list is the one found. -/
theorem findEntry_of_mem {n : Nat} {l : List (CsrNum × CsrEntry n)} (hl : risingNumbers l)
    {p : CsrNum × CsrEntry n} (hp : p ∈ l) : findEntry l p.1 = some p.2 := by
  induction l with
  | nil => cases hp
  | cons q t ih =>
    obtain ⟨b, e⟩ := q
    have hr := List.pairwise_cons.1 hl
    rcases List.mem_cons.1 hp with rfl | hm
    · simp [findEntry]
    · have hne : b ≠ p.1 := by
        rintro rfl
        exact absurd (hr.1 _ (List.mem_map_of_mem hm)) (lt_irrefl _)
      simp only [findEntry, hne, if_false]
      exact ih hr.2 hm

theorem Cfg.entry_of_mem {n : Nat} {c : Cfg n} (hw : c.wf = true) {p : CsrNum × CsrEntry n}
    (hp : p ∈ c.listed) : c.entry p.1 = p.2 :=
  Cfg.entry_of_find (findEntry_of_mem (Cfg.wf_rising hw) hp)

theorem Hart.Stored.implicitUpdate {n : Nat} {h : Hart n} (hs : h.Stored) (hw : h.cfg.wf = true)
    (word : InstrWord) (skip : Option CsrNum) : (h.implicitUpdate word skip).Stored :=
  hs.updateEach _ fun _ hp => Cfg.entry_of_mem hw hp

theorem Hart.Stored.envStep {n : Nat} {h : Hart n} (hs : h.Stored) (hw : h.cfg.wf = true) : h.envStep.Stored := by
  unfold Hart.envStep
  split
  · have := hs.updateEach (envValue h) fun _ hp => Cfg.entry_of_mem hw hp
    exact ⟨this.file, this.width⟩
  · exact hs

theorem Hart.Stored.csrEffects {n : Nat} {h : Hart n} (hs : h.Stored) (hw : h.cfg.wf = true) (word : InstrWord)
    (op : CsrOp) (src : Operand) (rd : RegNum) (a : CsrNum) : (h.csrEffects word op src rd a).Stored := by
  have h1 : (h.readPhase (readsCsr op rd) a).2.Stored := by
    unfold Hart.readPhase
    split
    · exact hs.csrRead hw a
    · exact hs
  have w1 : (h.readPhase (readsCsr op rd) a).2.cfg.wf = true := by
    rw [(Hart.Kept.readPhase h _ a).cfg]; exact hw
  have h2 : ∀ v em, ((h.readPhase (readsCsr op rd) a).2.writePhase (writesCsr op src.field) a v em).Stored := by
    intro v em
    unfold Hart.writePhase
    split
    · exact h1.csrWrite w1 a v em
    · exact h1
  exact (h2 _ _).implicitUpdate (by rw [(Hart.Kept.writePhase _ _ _ _ _).cfg]; exact w1) _ _

theorem Hart.Stored.csrNext {n : Nat} {h : Hart n} (hs : h.Stored) (hw : h.cfg.wf = true) (word : InstrWord)
    (op : CsrOp) (src : Operand) (rd : RegNum) (a : CsrNum) : (h.csrNext word op src rd a).Stored := by
  have := hs.csrEffects hw word op src rd a
  refine ⟨?_, fun b => ?_⟩
  · rw [Hart.csrNext_csr, Hart.csrNext_cfg, ← (Hart.Kept.csrEffects h word op src rd a).cfg]
    exact this.file
  · rw [Hart.csrNext_getCsr, Hart.csrNext_cfg, ← (Hart.Kept.csrEffects h word op src rd a).cfg]
    exact this.width b

theorem Hart.Stored.enterTrap {n : Nat} {h : Hart n} (hs : h.Stored) (c : Cause) (w : InstrWord) :
    (h.enterTrap c w).Stored := by
  have : ∀ (l : List (CsrNum × BitVec n)) (k : Hart n), k.Stored →
      (l.foldl (fun s p => s.setCsr p.1 (clip (s.cfg.entry p.1).width p.2)) k).Stored := by
    intro l
    induction l with
    | nil => exact fun k hk => hk
    | cons p t ih => exact fun k hk => ih _ (hk.setCsr (clip_clip _ _))
  have hk := this (Config.trapEntry c w h.toArch).csr h hs
  exact ⟨hk.file, hk.width⟩

end Sys2Proof.Machine
end

