-- ==== Sys2Proof/Tests/Slice0.lean ====
section
/-! SUPPORT. The model's own tests. Expected results are those of spec/95_test_vectors.md (the vector or program is
named) or of the rule named; a `witness_` theorem shows a state and operands that meet the hypotheses of the
statement it is named after, one part for each clause that has its own. -/

namespace Sys2Proof.Tests

open Sys2Proof.Machine

/-! ## A small hart and what can be seen of an outcome -/

/-- Configuration T at any width, pc 0x1000, everything zero but for what is given. -/
def hartT (n : Nat) (regs : List (RegNum × BitVec n)) (csrs : List (CsrNum × BitVec n)) (bulb : Bool := false) :
    Hart n :=
  let h0 : Hart n :=
    { x := Vector.replicate 31 (0#n), pc := 0x1000#n,
      csr := [(0x001, 0#n), (0x305, 0#n), (0x340, 0#n), (0x7C0, 0#n), (0xB02, 0#n), (0xF11, 0xABC#n)],
      env := { bulb := bulb, device := 0 }, cfg := configT n, prog := [], draws := 0, history := [],
      raised := none }
  csrs.foldl (fun s p => s.setCsr p.1 p.2) (regs.foldl (fun s p => s.writeReg p.1 p.2) h0)

/-- The same hart with a word at its pc. -/
def atPc {n : Nat} (h : Hart n) (w : InstrWord) : State := ⟨n, h.withFetchWord w⟩

def regAfter (o : Host.Outcome State Fault Refusal) (i : RegNum) : Option Nat :=
  match o with
  | .next t => some (t.hart.readReg i).toNat
  | .fault _ => none
  | .refused _ => none

def csrAfter (o : Host.Outcome State Fault Refusal) (a : CsrNum) : Option Nat :=
  match o with
  | .next t => some (t.hart.getCsr a).toNat
  | .fault _ => none
  | .refused _ => none

def bulbAfter (o : Host.Outcome State Fault Refusal) : Option Bool :=
  match o with
  | .next t => some t.hart.env.bulb
  | .fault _ => none
  | .refused _ => none

def pcAfter (o : Host.Outcome State Fault Refusal) : Option Nat :=
  match o with
  | .next t => some t.hart.pc.toNat
  | .fault _ => none
  | .refused _ => none

def faultOf (o : Host.Outcome State Fault Refusal) : Option Fault :=
  match o with
  | .next _ => none
  | .fault r => some r
  | .refused _ => none

def refusalOf (o : Host.Outcome State Fault Refusal) : Option Refusal :=
  match o with
  | .next _ => none
  | .fault _ => none
  | .refused r => some r

/-! ## What is ill formed is refused -/

theorem test_wf_every_instruction : (Instr.csrrci 31 0xFFF 31).wf = true ∧ (Instr.csrrw 0 0 0).wf = true := by decide
theorem test_wf_config_T : (configT 32).wf = true ∧ (configT 64).wf = true ∧ (configT 5).wf = true := by decide
theorem test_wf_other_configs : (resetCfg 32).wf = true ∧ (configNamed 32).wf = true := by decide

theorem test_wf_refuses_narrow_xlen : ({ listed := [], rest := .absent 4, onTrap := .stop } : Cfg 4).wf = false := by
  decide

theorem test_wf_refuses_number_listed_twice :
    ({ listed := [(0x340, .plain 32 0), (0x340, .plain 32 0)], rest := .absent 32, onTrap := .stop } : Cfg 32).wf
      = false := by decide

theorem test_wf_refuses_numbers_out_of_order :
    ({ listed := [(0x341, .plain 32 0), (0x340, .plain 32 0)], rest := .absent 32, onTrap := .stop } : Cfg 32).wf
      = false := by decide

theorem test_wf_refuses_csr_wider_than_xlen :
    ({ listed := [(0x340, .plain 33 0)], rest := .absent 32, onTrap := .stop } : Cfg 32).wf = false := by decide

theorem test_wf_refuses_writable_bit_above_width :
    ({ listed := [(0x001, .plain 5 0x20)], rest := .absent 32, onTrap := .stop } : Cfg 32).wf = false := by decide

theorem test_wf_refuses_ill_formed_rest :
    ({ listed := [], rest := .plain 33 0, onTrap := .stop } : Cfg 32).wf = false := by decide

theorem test_wf_refuses_unstated_counter :
    ({ listed := [], rest := { CsrEntry.plain 32 0 with implicit := .count }, onTrap := .stop } : Cfg 32).wf
      = false := by decide

theorem test_wf_refuses_unstated_environment :
    ({ listed := [], rest := { CsrEntry.plain 32 0 with envAffected := true }, onTrap := .stop } : Cfg 32).wf
      = false := by decide

/-- Every operand of every assembler term, one past its range, is refused. -/
theorem test_asm_refuses_operands_out_of_range :
    [Asm.csrrw 32 0 0, .csrrw 0 4096 0, .csrrw 0 0 32, .csrrs 32 0 0, .csrrs 0 4096 0, .csrrs 0 0 32,
     .csrrc 32 0 0, .csrrc 0 4096 0, .csrrc 0 0 32, .csrrwi 32 0 0, .csrrwi 0 4096 0, .csrrwi 0 0 32,
     .csrrsi 32 0 0, .csrrsi 0 4096 0, .csrrsi 0 0 32, .csrrci 32 0 0, .csrrci 0 4096 0, .csrrci 0 0 32,
     .csrr 32 0, .csrr 0 4096, .csrw 4096 0, .csrw 0 32, .csrwi 4096 0, .csrwi 0 32, .csrs 4096 0, .csrs 0 32,
     .csrc 4096 0, .csrc 0 32, .csrsi 4096 0, .csrsi 0 32, .csrci 4096 0, .csrci 0 32].all
      (fun t => !t.wf) = true := by decide

/-! ## Decoding: words written out, csr, rs1 or uimm, funct3, rd, opcode (E1 to E17) -/

theorem test_decode_csrrw : decodeWord 0b00110100000000110001001011110011#32 = some (.csrrw 5 0x340 6) := by decide
theorem test_decode_csrrs : decodeWord 0b00110100000001000010001111110011#32 = some (.csrrs 7 0x340 8) := by decide
theorem test_decode_csrrc : decodeWord 0b00110100000001010011010011110011#32 = some (.csrrc 9 0x340 10) := by decide
theorem test_decode_csrrwi : decodeWord 0b00110100000011111101001101110011#32 = some (.csrrwi 6 0x340 31) := by decide
theorem test_decode_csrrsi : decodeWord 0b00110100000010000110001011110011#32 = some (.csrrsi 5 0x340 16) := by decide
theorem test_decode_csrrci : decodeWord 0b00000000000110101111001111110011#32 = some (.csrrci 7 0x001 21) := by decide

theorem test_decode_extremes :
    decodeWord 0xFFFF9FF3 = some (.csrrw 31 0xFFF 31) ∧ decodeWord 0xFFFFFFF3 = some (.csrrci 31 0xFFF 31) ∧
    decodeWord 0x00001073 = some (.csrrw 0 0 0) := by decide

theorem test_decode_rejects :
    [0x00000073, 0x00100073, 0x30200073, 0x10500073, 0x00004073, 0x34034073, 0x00000013, 0x340312F2, 0x340312B3,
     0x3403127B, 0xFFFFFFFF, 0x00000000, 0x0FF0000F, 0x0000100F].all
      (fun w => (decodeWord (BitVec.ofNat 32 w)).isNone) = true := by decide

/-- E1's bytes, and a list too short. -/
theorem test_decode_bytes :
    decode [0xF3, 0x12, 0x03, 0x34] = .instr (.csrrw 5 0x340 6) ∧ decode [0xF3, 0x12, 0x03] = .truncated ∧
    decode [0x73, 0x00, 0x00, 0x00] = .notZicsr 0x73 := by decide

theorem test_encode : encode (.csrrw 5 0x340 6) = 0x340312F3 ∧ encode (.csrrci 7 0x001 21) = 0x001AF3F3 := by decide

/-- The seven words of S5. -/
theorem test_assemble_pseudoinstructions :
    [Asm.csrr 11 0x340, .csrw 0x340 6, .csrwi 0x340 5, .csrs 0x340 6, .csrc 0x340 6, .csrsi 0x340 3,
     .csrci 0x340 3].map assemble =
    [some 0x340025F3, some 0x34031073, some 0x3402D073, some 0x34032073, some 0x34033073, some 0x3401E073,
     some 0x3401F073] := by decide

theorem test_decode_table_word : decodeTableWord 32 0x340423F3 = some (.csrrs 7 0x340 8) := by decide

/-! ## The six instructions, two each -/

/-- V5: the swap of a register with a CSR. -/
theorem test_csrrw_swaps :
    let o := exec (.csrrw 5 0x340 5) ⟨32, hartT 32 [(5, 0xAAAAAAAA)] [(0x340, 0x55555555)]⟩
    regAfter o 5 = some 0x55555555 ∧ csrAfter o 0x340 = some 0xAAAAAAAA ∧ pcAfter o = some 0x1004 := by decide

/-- V40 and V41 differ in `rd` only: with `x0` the bulb CSR is not read. -/
theorem test_csrrw_rd_decides_the_read :
    bulbAfter (exec (.csrrw 0 0x7C0 5) ⟨32, hartT 32 [(5, 4)] [(0x7C0, 7)]⟩) = some false ∧
    bulbAfter (exec (.csrrw 6 0x7C0 5) ⟨32, hartT 32 [(5, 4)] [(0x7C0, 7)]⟩) = some true := by decide

/-- V22: bits that are not writable are not set. -/
theorem test_csrrs_keeps_nonwritable_bits :
    let o := exec (.csrrs 3 0x305 4) ⟨32, hartT 32 [(4, 3)] [(0x305, 0xFFFFFFFD)]⟩
    regAfter o 3 = some 0xFFFFFFFD ∧ csrAfter o 0x305 = some 0xFFFFFFFD := by decide

/-- V49: a zero mask in a register other than `x0` is a write, done instead of the count. -/
theorem test_csrrs_zero_mask_stops_the_count :
    let o := exec (.csrrs 7 0xB02 8) ⟨32, hartT 32 [(8, 0)] [(0xB02, 41)]⟩
    regAfter o 7 = some 41 ∧ csrAfter o 0xB02 = some 41 := by decide

/-- V18. -/
theorem test_csrrc_clears :
    let o := exec (.csrrc 9 0x340 10) ⟨32, hartT 32 [(10, 0xFF00)] [(0x340, 0x1234567F)]⟩
    regAfter o 9 = some 0x1234567F ∧ csrAfter o 0x340 = some 0x1234007F ∧ csrAfter o 0xB02 = some 1 := by decide

/-- V15: reading a read-only CSR does not raise; V23: a bit that is not writable is not cleared. -/
theorem test_csrrc_read_only_and_nonwritable :
    regAfter (exec (.csrrc 5 0xF11 0) ⟨32, hartT 32 [] []⟩) 5 = some 0xABC ∧
    csrAfter (exec (.csrrc 7 0x305 8) ⟨32, hartT 32 [(8, 0xFFFFFFFF)] [(0x305, 0xFFFFFFFD)]⟩) 0x305 = some 1 := by
  decide

/-- V26: zero-extended, not sign-extended; no register named 31 is read. -/
theorem test_csrrwi_zero_extends :
    let o := exec (.csrrwi 6 0x340 31) ⟨32, hartT 32 [(31, 0x77)] [(0x340, 0x12345678)]⟩
    regAfter o 6 = some 0x12345678 ∧ csrAfter o 0x340 = some 0x1F := by decide

/-- V27 and V29: a zero immediate does not stop CSRRWI writing. -/
theorem test_csrrwi_zero_writes :
    csrAfter (exec (.csrrwi 5 0x340 0) ⟨32, hartT 32 [] [(0x340, 0x12345678)]⟩) 0x340 = some 0 ∧
    faultOf (exec (.csrrwi 0 0xF11 0) ⟨32, hartT 32 [] []⟩) =
      some (.trap .illegalInstruction 0x1000 0xF1105073) := by decide

/-- V30, and V39a at `XLEN` 64. -/
theorem test_csrrsi_sets :
    csrAfter (exec (.csrrsi 5 0x340 16) ⟨32, hartT 32 [] [(0x340, 3)]⟩) 0x340 = some 0x13 ∧
    csrAfter (exec (.csrrsi 5 0x340 16) ⟨64, hartT 64 [] []⟩) 0x340 = some 0x10 := by decide

/-- V46 and V50: with a zero immediate the CSR is read, not written. -/
theorem test_csrrsi_zero_only_reads :
    bulbAfter (exec (.csrrsi 6 0x7C0 0) ⟨32, hartT 32 [] [(0x7C0, 7)]⟩) = some true ∧
    csrAfter (exec (.csrrsi 5 0xB02 0) ⟨32, hartT 32 [] [(0xB02, 41)]⟩) 0xB02 = some 42 := by decide

/-- V39b: a 5-bit CSR at `XLEN` 64. -/
theorem test_csrrci_narrow_csr :
    let o := exec (.csrrci 7 0x001 21) ⟨64, hartT 64 [] [(0x001, 0x1F)]⟩
    regAfter o 7 = some 0x1F ∧ csrAfter o 0x001 = some 0x0A := by decide

/-- V51: a write to the counter is done instead of the increment; V37: a CSR that is not accessible. -/
theorem test_csrrci_counter_and_inaccessible :
    csrAfter (exec (.csrrci 5 0xB02 1) ⟨32, hartT 32 [] [(0xB02, 7)]⟩) 0xB02 = some 6 ∧
    faultOf (exec (.csrrci 31 0xFFF 31) ⟨32, hartT 32 [] []⟩) =
      some (.trap .illegalInstruction 0x1000 0xFFFFFFF3) := by decide

/-! ## Steps -/

/-- The first instruction after reset (notes/assumptions/1 and 3). -/
theorem test_step_from_reset :
    let o := step (State.reset.withFetchWord 32 0x340FD373)
    pcAfter o = some 0x1004 ∧ csrAfter o 0x340 = some 31 ∧ csrAfter o 0xB02 = some 1 := by decide

/-- Program P3's third step: a write to a read-only CSR traps, with the word. -/
theorem test_step_traps :
    faultOf (step (atPc (hartT 32 [] []) 0xF11423F3)) = some (.trap .illegalInstruction 0x1000 0xF11423F3) := by decide

/-- Program P7's second step is refused; with no program the hart is stuck; an ill-formed configuration is not run. -/
theorem test_step_stops :
    refusalOf (step (atPc (hartT 32 [] []) 0x73)) = some (.notZicsr 0x73) ∧
    faultOf (step ⟨32, hartT 32 [] []⟩) = some (.stuck 0x1000) ∧
    refusalOf (step ⟨4, hartT 4 [] []⟩) = some .illFormedConfig := by decide

/-- V54: the counter wraps; the pc wraps at the top of the space. -/
theorem test_step_wraps :
    csrAfter (step (atPc (hartT 32 [] [(0xB02, 0xFFFFFFFF)]) 0xB02022F3)) 0xB02 = some 0 ∧
    pcAfter (step (atPc { hartT 32 [] [] with pc := 0xFFFFFFFC } 0xB02022F3)) = some 0 := by decide

/-- The environment moves after a completed instruction where a CSR is environment-affected (10_state.md R24). -/
theorem test_step_environment_draws :
    (match step (atPc { hartT 32 [] [] with cfg := configNamed 32 } 0x003022F3) with
      | .next t => t.hart.draws
      | .fault _ => 0
      | .refused _ => 0) = 1 := by decide

/-- Where `TrapEntry` is taken a raised exception is still told apart from a completed instruction (00_scope.md R8). -/
theorem test_trap_entry_is_told_apart :
    stepKind (hartStep (atPc { hartT 32 [] [] with cfg := { configT 32 with onTrap := .enter } } 0xF11423F3)) =
      .trap ⟨.illegalInstruction, 0x1000, 0xF11423F3⟩ ∧
    stepKind (hartStep (atPc (hartT 32 [] []) 0x340312F3)) = .next := ⟨rfl, rfl⟩

/-! ## Witnesses -/

/-- A hart of configuration T with something in every place the statements name. -/
def h0 : Hart 32 := hartT 32 [(5, 7), (6, 4), (31, 0xFFFFFFFF)] [(0x340, 0xF0), (0x7C0, 7), (0xB02, 41), (0x001, 0x1F)]

/-- `h0` where `TrapEntry` is given. -/
def hEnter : Hart 32 := { h0 with cfg := { configT 32 with onTrap := .enter } }

/-- `h0` with no program at an odd `pc`. -/
def hOdd : Hart 32 := { h0 with pc := 0x1002 }

theorem witness_DecodeOfEncodeIsIdentity : (Instr.csrrci 31 0xFFF 31).wf = true := by decide

theorem witness_EncodeOfDecodedWordIsThatWord : decodeWord 0xFFFFFFF3 = some (.csrrci 31 0xFFF 31) := by decide

theorem witness_OtherWordsAreRefused :
    (atPc h0 0x4073).hart.cfg.wf = true ∧ (atPc h0 0x4073).hart.fetch = some 0x4073 ∧ decodeWord 0x4073 = none := by
  decide

theorem witness_StepRunsDecodedInstruction :
    (atPc h0 0x340312F3).hart.cfg.wf = true ∧ (atPc h0 0x340312F3).hart.fetch = some 0x340312F3 ∧
    decodeWord 0x340312F3 = some (.csrrw 5 0x340 6) := by decide

/-- One part for each row of the table, and a row where `TrapEntry` is taken. -/
theorem witness_StepOutcomeByCondition :
    h0.cfg.wf = true ∧ h0.cfg.onTrap = .stop ∧
    (hOdd.cfg.wf = true ∧ hOdd.pc.toNat % 4 ≠ 0) ∧
    h0.prog.readWord h0.pc.toNat = none ∧
    h0.pc.toNat % 4 = 0 ∧ (atPc h0 0x73).hart.prog.readWord 0x1000 = some 0x73 ∧ decodeWord 0x73 = none ∧
    decodeWord 0xFFF022F3 = some (.csrrs 5 0xFFF 0) ∧ h0.csrAccessible 0xFFF = false ∧
    decodeWord 0xF11312F3 = some (.csrrw 5 0xF11 6) ∧ h0.csrAccessible 0xF11 = true ∧
    h0.csrReadOnly 0xF11 = true ∧ writesCsr .write 6 = true ∧
    h0.csrAccessible 0x340 = true ∧ h0.csrReadOnly 0x340 = false ∧
    (hEnter.cfg.wf = true ∧ hEnter.csrAccessible 0xFFF = false) := by decide

theorem witness_IllFormedConfigurationIsRefused :
    (hartT 4 [] []).cfg.wf = false ∧ (configT 5).wf = true := by decide

theorem witness_FetchIsTheLittleEndianWordAtPc : h0.cfg.wf = true ∧ h0.fetch = none := by decide

theorem witness_StepKeepsPcAligned :
    hOdd.cfg.wf = true ∧ hOdd.pc.toNat % 4 ≠ 0 ∧
    (atPc h0 0x340312F3).hart.cfg.onTrap = .stop ∧ (atPc h0 0x340312F3).hart.pc.toNat % 4 = 0 ∧
    pcAfter (step (atPc h0 0x340312F3)) = some 0x1004 := by decide

theorem witness_StepLeavesProgramAndConfiguration :
    ∃ t, step (atPc h0 0x340312F3) = .next t := ⟨_, rfl⟩

theorem witness_RegisterReadAfterWrite : (31#5 : RegNum) ≠ 0#5 := by decide

theorem witness_PcAdvancesByFourOnCompletion :
    ¬ Raises h0 (.csrrw 5 0x340 6) ∧ 5 ≤ 32 ∧ h0.pc.toNat % 4 = 0 ∧
    Raises h0 (.csrrw 5 0xF11 6) ∧ h0.cfg.onTrap = .stop ∧ (atPc h0 0x340312F3).hart.fetch ≠ none := by decide

/-- A form that does not write leaves its own CSR; a plain one leaves the environment. -/
theorem witness_FrameOfTheSixInstructions :
    (¬ Raises h0 (.csrrs 0 0x340 0) ∧ (∃ t, exec (.csrrs 0 0x340 0) ⟨32, h0⟩ = .next ⟨32, t⟩)) ∧
    h0.cfg.wf = true ∧ (h0.cfg.entry 0x340).onRead = .none ∧ (h0.cfg.entry 0x340).onWrite = .none ∧
    (h0.cfg.entry 0x340).implicit = .none ∧ writesCsr .set 0 = false ∧
    (h0.cfg.entry 0x001).implicit = .none := ⟨⟨by decide, ⟨_, rfl⟩⟩, by decide⟩

theorem witness_CsrrwCompletesAsWrittenOut : h0.csrAccessible 0x340 = true ∧ h0.csrReadOnly 0x340 = false := by decide

/-- On a read-only CSR with `x0`, and on a writable one with a register. -/
theorem witness_CsrrsCompletesAsWrittenOut :
    (h0.csrAccessible 0xF11 = true ∧ ((0#5 : RegNum) ≠ 0#5 → h0.csrReadOnly 0xF11 = false)) ∧
    (h0.csrAccessible 0x340 = true ∧ ((5#5 : RegNum) ≠ 0#5 → h0.csrReadOnly 0x340 = false)) := by decide

theorem witness_CsrrcCompletesAsWrittenOut :
    (h0.csrAccessible 0xF11 = true ∧ ((0#5 : RegNum) ≠ 0#5 → h0.csrReadOnly 0xF11 = false)) ∧
    (h0.csrAccessible 0x340 = true ∧ ((5#5 : RegNum) ≠ 0#5 → h0.csrReadOnly 0x340 = false)) := by decide

theorem witness_CsrrwiCompletesAsWrittenOut : h0.csrAccessible 0x001 = true ∧ h0.csrReadOnly 0x001 = false := by decide

theorem witness_CsrrsiCompletesAsWrittenOut :
    (h0.csrAccessible 0xF11 = true ∧ ((0#5 : Uimm) ≠ 0#5 → h0.csrReadOnly 0xF11 = false)) ∧
    (h0.csrAccessible 0x340 = true ∧ ((31#5 : Uimm) ≠ 0#5 → h0.csrReadOnly 0x340 = false)) := by decide

theorem witness_CsrrciCompletesAsWrittenOut :
    (h0.csrAccessible 0xF11 = true ∧ ((0#5 : Uimm) ≠ 0#5 → h0.csrReadOnly 0xF11 = false)) ∧
    (h0.csrAccessible 0x340 = true ∧ ((31#5 : Uimm) ≠ 0#5 → h0.csrReadOnly 0x340 = false)) := by decide

theorem witness_PlainCsrReadAndWrite :
    ((h0.cfg.entry 0x001).onRead = .none ∧ clip (h0.cfg.entry 0x001).width (h0.getCsr 0x001) = h0.getCsr 0x001) ∧
    (h0.cfg.entry 0x001).onWrite = .none ∧ (h0.cfg.entry 0xB02).onWrite = .none := by decide

/-- On a plain CSR that is only read, on the light bulb, and on a counter that is written. -/
theorem witness_SixInstructionsOnAPlainCsr :
    h0.cfg.wf = true ∧
    (¬ Raises h0 (.csrrs 5 0x001 0) ∧ (h0.cfg.entry 0x001).onRead ≠ .free ∧ (h0.cfg.entry 0x001).onWrite ≠ .free ∧
      (h0.cfg.entry 0x001).implicit = .none) ∧
    (¬ Raises h0 (.csrrw 5 0x7C0 6) ∧ (h0.cfg.entry 0x7C0).onRead ≠ .free ∧ (h0.cfg.entry 0x7C0).onWrite ≠ .free) ∧
    (¬ Raises h0 (.csrrci 5 0xB02 1) ∧ (h0.cfg.entry 0xB02).onRead ≠ .free ∧
      (h0.cfg.entry 0xB02).onWrite ≠ .free ∧ writesCsr .clear 1 = true) := by decide

theorem witness_SetClearAndSwapInSequence :
    h0.cfg.wf = true ∧ h0.cfg.entry 0x340 = CsrEntry.plain 32 (ones 32) ∧ (5#5 : RegNum) ≠ 0#5 := by decide

theorem witness_SetAndClearWithX0OnlyRead :
    h0.csrAccessible 0xF11 = true ∧ h0.csrReadOnly 0xF11 = true ∧ ¬ Raises h0 (.csrrs 0 0x340 5) := by decide

theorem witness_ImmediateSetAndClearAlwaysRead :
    ¬ Raises h0 (.csrrsi 0 0xF11 0) ∧ ¬ Raises h0 (.csrrci 5 0x340 31) := by decide

theorem witness_ZeroMaskInARegisterStillWrites :
    (8#5 : RegNum) ≠ 0#5 ∧ h0.readReg 8 = 0 ∧ (h0.csrAccessible 0x340 = true ∧ h0.csrReadOnly 0x340 = false ∧
      (h0.cfg.entry 0x340).onWrite = .none) ∧
    (h0.csrAccessible 0xF11 = true ∧ h0.csrReadOnly 0xF11 = true ∧ h0.cfg.onTrap = .stop) := by decide

theorem witness_CsrrwWithX0WritesZero :
    (h0.csrAccessible 0x305 = true ∧ h0.csrReadOnly 0x305 = false ∧ h0.cfg.wf = true ∧ Ordinary h0 0x305) ∧
    (h0.csrAccessible 0xF11 = true ∧ h0.csrReadOnly 0xF11 = true ∧ h0.cfg.onTrap = .stop) := by decide

theorem witness_SameRegisterUsesInitialValue :
    h0.cfg.wf = true ∧ h0.cfg.entry 0x340 = CsrEntry.plain 32 (ones 32) ∧ (31#5 : RegNum) ≠ 0#5 := by decide

theorem witness_DestinationX0 :
    (¬ Raises h0 (.csrrs 0 0x7C0 0) ∧ ¬ Raises h0 (.csrrc 0 0x7C0 5) ∧ ¬ Raises h0 (.csrrsi 0 0x7C0 5) ∧
      ¬ Raises h0 (.csrrci 0 0x7C0 0) ∧ ¬ Raises h0 (.csrrw 0 0x7C0 5) ∧ ¬ Raises h0 (.csrrwi 0 0x7C0 0)) ∧
    h0.cfg.wf = true ∧ opOf (.csrrc 0 0x7C0 5) ≠ .write ∧ opOf (.csrrc 7 0x7C0 5) = opOf (.csrrc 0 0x7C0 5) := by
  decide

/-- Every entry of configuration T is settled, and its implicit updates are the spec's. -/
theorem settled_configT (n : Nat) : Cfg.settled (configT n) := by
  intro a
  simp only [Cfg.entry, configT, findEntry]
  repeat' split
  all_goals simp [CsrEntry.plain, CsrEntry.absent]

/-- The premise on implicit updates, for `witness_DestinationX0`. -/
theorem witness_DestinationX0_implicit : ∀ b, (h0.cfg.entry b).implicit ≠ .free :=
  fun b => (settled_configT 32 b).2.2.2

theorem witness_ImmediateFormMatchesRegisterForm :
    h0.readReg 5 = (7#5 : Uimm).setWidth 32 ∧ ((5#5 : RegNum) = 0#5 ↔ (7#5 : Uimm) = 0#5) ∧ h0.cfg.wf = true ∧
    (∀ b, (h0.cfg.entry b).implicit ≠ .free) ∧ ¬ Raises h0 (.csrrw 5 0x340 5) ∧ ¬ Raises h0 (.csrrs 5 0x340 5) ∧
    ¬ Raises h0 (.csrrc 5 0x340 5) :=
  ⟨by decide, by decide, by decide, fun b => (settled_configT 32 b).2.2.2, by decide, by decide, by decide⟩

theorem witness_ImmediateFormsReadNoRegister :
    h0.cfg.wf = true ∧ Cfg.settled h0.cfg ∧ ¬ Raises h0 (.csrrwi 5 0x340 31) :=
  ⟨by decide, settled_configT 32, by decide⟩

theorem witness_TableOfReadAndWriteConditions :
    ¬ Raises h0 (.csrrw 0 0x340 0) ∧ ¬ Raises h0 (.csrrs 0 0xF11 0) ∧ ¬ Raises h0 (.csrrci 31 0x340 31) := by decide

theorem witness_LightBulbSequence :
    h0.cfg.wf = true ∧
    h0.cfg.entry 0x7C0 = { CsrEntry.plain 32 (ones 32) with onRead := .bulbOn, onWrite := .bulbOffWhenOdd } ∧
    (5#5 : RegNum) ≠ 0#5 ∧ (0#5 : RegNum) ≠ 5#5 ∧ (h0.readReg 5).getLsbD 0 = true ∧
    ((6#5 : RegNum) ≠ 0#5 ∧ (h0.readReg 6).getLsbD 0 = false) := by decide

theorem witness_CounterAddsOneModuloItsWidth :
    h0.cfg.wf = true ∧ (h0.cfg.entry 0xB02).implicit = .count ∧ (h0.cfg.entry 0x340).implicit = .none := by decide

theorem witness_ImplicitUpdateLaw : h0.cfg.wf = true := by decide

theorem witness_CounterReadGivesPriorValue :
    h0.cfg.wf = true ∧ (h0.cfg.entry 0xB02).implicit = .count ∧ Ordinary h0 0xB02 ∧
    readsCsr .write 5 = true ∧ (h0.cfg.entry 0xB02).access = .always := by decide

theorem witness_CounterWriteReplacesIncrement :
    h0.cfg.wf = true ∧ h0.cfg.entry 0xB02 = { CsrEntry.plain 32 (ones 32) with implicit := .count } ∧
    h0.readReg 8 = 0 ∧ csrOf (.csrrw 0 0x340 6) ≠ 0xB02 ∧ ¬ Raises h0 (.csrrw 0 0x340 6) ∧
    (h0.cfg.entry 0x340).onRead ≠ .free ∧ (h0.cfg.entry 0x340).onWrite ≠ .free := by decide

theorem witness_ExplicitWriteOverridesImplicit :
    h0.cfg.wf = true ∧ ¬ Raises h0 (.csrrw 5 0xB02 6) := by decide

/-- A counter whose low bit is not writable. -/
def hCounter : Hart 32 :=
  { h0 with cfg := { listed := [(0xB02, { CsrEntry.plain 32 0xFFFFFFFE with implicit := .count })],
                     rest := .absent 32, onTrap := .stop } }

/-- A CSR that execution leaves, and a counter that the instruction writes. -/
theorem witness_NonWritableBitsAreKept :
    (h0.cfg.wf = true ∧ ¬ Raises h0 (.csrrw 5 0x305 31) ∧ (h0.cfg.entry 0x305).implicit = .none ∧
      (h0.cfg.entry 0x305).writable.getLsbD 0 = false ∧ (h0.cfg.entry 0x305).writable.getLsbD 1 = false) ∧
    (hCounter.cfg.wf = true ∧ ¬ Raises hCounter (.csrrw 5 0xB02 31) ∧ csrOf (.csrrw 5 0xB02 31) = 0xB02 ∧
      writesCsr .write 31 = true ∧ (hCounter.cfg.entry 0xB02).writable.getLsbD 0 = false) := by decide

/-- A CSR with no writable bit that is not read-only. -/
def hConst : Hart 32 :=
  { h0 with cfg := { listed := [(0x340, .plain 32 0)], rest := .absent 32, onTrap := .stop } }

theorem witness_ReadOnlyIsNotNoWritableBit :
    (h0.csrAccessible 0xF11 = true ∧ h0.csrReadOnly 0xF11 = true ∧ writesCsr .write 0 = true ∧ h0.cfg.onTrap = .stop) ∧
    writesCsr .set 0 = false ∧
    (hConst.csrAccessible 0x340 = true ∧ hConst.csrReadOnly 0x340 = false ∧ hConst.cfg.wf = true ∧
      (hConst.cfg.entry 0x340).writable = 0 ∧ (hConst.cfg.entry 0x340).implicit = .none) := by decide

theorem witness_ReadIsZeroExtendedFromTheWidth :
    h0.cfg.wf = true ∧ ¬ Raises h0 (.csrrs 5 0x001 0) ∧ readsCsr .set 5 = true := by decide

theorem witness_WritingAReadOnlyCsrRaises :
    h0.csrAccessible 0xF11 = true ∧ h0.csrReadOnly 0xF11 = true ∧ h0.cfg.onTrap = .stop ∧ (1#5 : BitVec 5) ≠ 0#5 := by
  decide

theorem witness_InaccessibleCsrRaises :
    h0.csrAccessible (csrOf (.csrrs 5 0x7FF 0)) = false ∧ h0.cfg.onTrap = .stop := by decide

theorem witness_OnlyIllegalInstructionIsRaised :
    h0.cfg.onTrap = .stop ∧ ¬ Raises h0 (.csrrw 5 0x340 6) ∧ Raises h0 (.csrrw 5 0xF11 6) := by decide

theorem witness_RaisedExceptionTakesTrapEntry :
    (Raises h0 (.csrrw 5 0xF11 6) ∧ h0.cfg.onTrap = .stop) ∧
    (Raises hEnter (.csrrw 5 0xF11 6) ∧ hEnter.cfg.onTrap = .enter) ∧ ¬ Raises h0 (.csrrw 5 0x340 6) := by decide

/-- A marked and an unmarked CSR, and a configuration that marks none. -/
theorem witness_EnvironmentChangesOnlyMarkedCsrs :
    ((configNamed 32).wf = true ∧ ((configNamed 32).entry 0xC01).envAffected = true ∧
      ((configNamed 32).entry 0x003).envAffected = false) ∧
    (h0.cfg.wf = true ∧ ∀ b, (h0.cfg.entry b).envAffected = false) := by
  refine ⟨by decide, by decide, fun b => ?_⟩
  show ((configT 32).entry b).envAffected = false
  simp only [Cfg.entry, configT, findEntry]
  repeat' split
  all_goals simp [CsrEntry.plain, CsrEntry.absent]

theorem witness_AccessClassesForFence :
    ¬ Raises h0 (.csrrw 5 0x340 6) ∧ ¬ Raises h0 (.csrrw 0 0x340 6) ∧ ¬ Raises h0 (.csrrs 5 0x340 0) := by decide

theorem witness_HistoryRecordsEachAccess : ¬ Raises h0 (.csrrc 5 0x340 6) := by decide

/-- A read and a write of one instruction, then a write of the next. -/
def threeEvents : List (CsrEvent 32) :=
  eventsOf [⟨0x305, none, some 2⟩, ⟨0x340, some 0, some 1⟩]

/-- Both instructions' accesses may be swapped: the premises with `A` the first two events and `B` the third. -/
theorem witness_AccessesAreWeaklyOrdered :
    ((⟨0, .deviceOutput, 0x340, 1⟩ : CsrEvent 32).instr ≠ (⟨1, .deviceOutput, 0x305, 2⟩ : CsrEvent 32).instr ∧
      Cfg.strong (configT 32) 0x340 = false ∧ Cfg.strong (configT 32) 0x305 = false) ∧
    inProgramOrder threeEvents ∧
    threeEvents = [] ++ threeEvents.take 2 ++ threeEvents.drop 2 ++ [] ∧
    (∀ e ∈ threeEvents.take 2, ∀ f ∈ threeEvents.drop 2,
      e.instr ≠ f.instr ∧ Cfg.strong (configT 32) e.num = false ∧ Cfg.strong (configT 32) f.num = false) ∧
    (List.Sublist [(⟨0, .deviceInput, 0x340, 0⟩ : CsrEvent 32), ⟨0, .deviceOutput, 0x340, 1⟩] threeEvents) := by
  unfold inProgramOrder
  decide

/-- For its last clause: an order that others may see. -/
theorem witness_AccessesAreWeaklyOrdered_seen :
    observable (configT 32) [(⟨0, .deviceInput, 0x340, 0⟩ : CsrEvent 32)] [⟨0, .deviceInput, 0x340, 0⟩] := by
  refine ⟨.refl _, fun e f h _ => ?_, fun e g f h _ => ?_⟩
  · exact absurd h.length_le (by simp)
  · exact absurd h.length_le (by simp)

theorem witness_RunIsAStraightLine :
    (atPc h0 0x340312F3).hart.cfg.onTrap = .stop ∧
    ∃ t, Host.Core.run core 1 (atPc h0 0x340312F3) = .next t := ⟨by decide, ⟨_, rfl⟩⟩

def endedWellAt : RunEnd → Option Nat
  | .endedWell t => some t.hart.pc.toNat
  | .trapped _ | .notYet _ | .fault _ | .refused _ => none

def trappedWith : RunEnd → Option Raised
  | .trapped t => t.hart.raised
  | .endedWell _ | .notYet _ | .fault _ | .refused _ => none

theorem witness_RunEndsWithinItsLength :
    Launched 0x1000 (0x1000 + 4 * 1) (atPc h0 0x340312F3) ∧ 0 < 1 ∧ 0x1000 + 4 * 1 < 2 ^ 32 ∧
    endedWellAt (runTo 0x1004 1 (atPc h0 0x340312F3)) = some 0x1004 ∧
    trappedWith (runTo 0x1004 1 (atPc hEnter 0xF11312F3)) = some ⟨.illegalInstruction, 0x1000, 0xF11312F3⟩ := by
  refine ⟨⟨by decide, by decide, by decide, by decide, fun k h1 h2 => ?_, by decide⟩, by decide, by decide, by decide,
    rfl⟩
  have : k = 0x400 := by omega
  subst this
  decide

/-- A hart with one plain CSR of a value, and `csrrwi x5, 0x340, 31` where it fetches. -/
def hInv : Hart 32 :=
  { h0 with cfg := { listed := [(0x340, .plain 32 0xFF)], rest := .absent 32, onTrap := .stop },
            csr := [(0x340, 5)] }

theorem witness_StepKeepsStateInvariant :
    (atPc hInv 0x3402D2F3).Inv ∧ pcAfter (step (atPc hInv 0x3402D2F3)) = some 0x1004 := by
  refine ⟨⟨by decide, by decide, fun a => ?_, by decide, by decide⟩, by decide⟩
  by_cases ha : a = 0x340
  · subst ha; decide
  · have hz : (atPc hInv 0x3402D2F3).hart.getCsr a = 0#32 := by
      have : (0x340 : Nat) ≠ a.toNat := fun hc => ha (BitVec.eq_of_toNat_eq (by simpa using hc.symm))
      show ((if (0x340 : Nat) = a.toNat then some (5#32) else none).getD (0#32)) = 0#32
      simp [this]
    rw [hz]
    show BitVec.setWidth 32 (BitVec.setWidth _ (0#32)) = 0#32
    simp

/-- Every operand at the top of its range, and one past it. -/
theorem witness_PseudoinstructionsStandForTheSix :
    (31 < 32 ∧ 4095 < 4096) ∧ ¬ (32 < 32) ∧ ¬ (4096 < 4096) := by decide

theorem witness_FieldsOfTheFormat :
    decodeWord 0xFFF02FF3 = some (.csrrs 31 0xFFF 0) ∧ decodeWord 0x0000A073 = some (.csrrs 0 0 1) ∧
    (0xFFF02FF3#32).extractLsb' 0 7 = (0x0000A073#32).extractLsb' 0 7 ∧
    (0xFFF02FF3#32).extractLsb' 12 3 = (0x0000A073#32).extractLsb' 12 3 := by decide

theorem witness_ImmediateIsZeroExtended :
    decodeWord 0x340FD373 = some (.csrrwi 6 0x340 31) ∧ srcOf (.csrrwi 6 0x340 31) = .imm 31 ∧ h0.cfg.wf = true ∧
    ¬ Raises h0 (.csrrwi 6 0x340 31) ∧ (h0.cfg.entry 0x340).onRead ≠ .free ∧ (h0.cfg.entry 0x340).onWrite ≠ .free ∧
    writesCsr .write 31 = true := by decide

/-- A 5-bit CSR of a 32-bit hart, and two values that differ above its width. -/
theorem witness_BitsAboveTheWidthHaveNoEffect :
    h0.cfg.wf = true ∧ (h0.cfg.entry 0x001).width = 5 ∧ (0x2F#32) ≠ 0x0F#32 ∧
    (∀ k, k < 5 → (0x2F#32).getLsbD k = (0x0F#32).getLsbD k ∧ (0xFFFFFFFF#32).getLsbD k = (0x1F#32).getLsbD k) ∧
    5 ≤ 31 := by decide

theorem witness_RegistersReadAndWritten :
    h0.cfg.wf = true ∧ Cfg.settled h0.cfg ∧ ¬ Raises h0 (.csrrw 5 0x340 5) ∧ ¬ Raises h0 (.csrrwi 0 0x340 31) ∧
    srcOf (.csrrw 5 0x340 5) = .reg 5 ∧ writesCsr (opOf (.csrrw 5 0x340 5)) 5 = true :=
  ⟨by decide, settled_configT 32, by decide, by decide, by decide, by decide⟩

end Sys2Proof.Tests
end

section
/-! The register file: what a read returns after a write (00_scope.md R7, 10_state.md R11). -/

namespace Sys2Proof.Machine

/-- Settles O14: the register written and the others are the two cases of the register file's read-after-write law. -/
theorem registerReadAfterWrite : Obligations.RegisterReadAfterWrite := by
  unfold Obligations.RegisterReadAfterWrite
  intro n h i j v hi
  split
  next hji =>
    subst hji
    exact h.readReg_writeReg_same hi v
  next hji => exact h.readReg_writeReg_other hji v

end Sys2Proof.Machine
end

section
/-! The invariant of the state: every step keeps it, and the state the model starts from meets it. -/

namespace Sys2Proof.Machine

/-- The invariant's storage part, from the invariant. -/
theorem Hart.Inv.stored {n : Nat} {h : Hart n} (hi : h.Inv) : h.Stored := ⟨hi.file, hi.width⟩

/-- A change that leaves the parameters keeps the invariant as soon as it keeps the storage canonical and in width. -/
theorem Hart.Inv.of_stored {n : Nat} {h k : Hart n} (hi : h.Inv) (hs : k.Stored) (hc : k.cfg = h.cfg)
    (hp : k.prog = h.prog) : k.Inv where
  config := hc ▸ hi.config
  file := hs.file
  width := hs.width
  program := hp ▸ hi.program
  space := hp ▸ hi.space

theorem Hart.Inv.csrNext {n : Nat} {h : Hart n} (hi : h.Inv) (word : InstrWord) (op : CsrOp) (src : Operand)
    (rd : RegNum) (a : CsrNum) : (h.csrNext word op src rd a).Inv :=
  hi.of_stored (hi.stored.csrNext hi.config ..) (h.csrNext_cfg ..) (h.csrNext_prog ..)

theorem Hart.Inv.enterTrap {n : Nat} {h : Hart n} (hi : h.Inv) (c : Cause) (word : InstrWord) :
    (h.enterTrap c word).Inv :=
  hi.of_stored (hi.stored.enterTrap c word) (h.enterTrap_cfg c word) (h.enterTrap_prog c word)

theorem Hart.Inv.envStep {n : Nat} {h : Hart n} (hi : h.Inv) : h.envStep.Inv :=
  hi.of_stored (hi.stored.envStep hi.config) h.envStep_cfg h.envStep_prog

/-- Settles O54: a step is an instruction that completes or enters its trap, then the environment's move, and each of
these keeps the invariant. -/
theorem stepKeepsStateInvariant : Obligations.StepKeepsStateInvariant := by
  unfold Obligations.StepKeepsStateInvariant
  rintro ⟨n, h⟩ t (hi : h.Inv) hstep
  obtain ⟨-, w, i, -, -, ⟨-, rfl⟩ | ⟨-, -, rfl⟩⟩ := step_cases hstep
  · exact (hi.csrNext ..).envStep
  · exact (hi.enterTrap ..).envStep

/-- At reset every CSR but 0x001, which is 5 bits wide, is as wide as the hart. -/
theorem width_entry_resetCfg {a : CsrNum} (ha : a ≠ 0x001) : ((resetCfg 32).entry a).width = 32 := by
  have hlisted : ∀ p ∈ (resetCfg 32).listed, p.1 ≠ 0x001 → p.2.width = 32 := by decide
  cases hf : findEntry (resetCfg 32).listed a with
  | none => rw [Cfg.entry_of_find_none hf]; rfl
  | some e => rw [Cfg.entry_of_find hf]; exact hlisted _ (findEntry_mem hf) ha

theorem inWidth_reset : Hart.reset.inWidth := by
  intro a
  by_cases ha : a = 0x001
  · subst ha; decide
  · exact clip_of_le (width_entry_resetCfg ha).ge _

/-- Settles O55: the configuration and the storage at reset are short lists, checked entry by entry; that every one of
the 4096 CSRs is in its width is `inWidth_reset`. -/
theorem resetMeetsStateInvariant : Obligations.ResetMeetsStateInvariant where
  config := by decide
  file := by decide
  width := inWidth_reset
  program := by decide
  space := by decide

end Sys2Proof.Machine
end

section
/-! Registers and `pc`: the register that is always zero, and the straight line of a run. -/

namespace Sys2Proof.Machine

/-- Settles O13: neither the read nor the write of `x0` reaches the stored registers. -/
theorem registerZeroReadsZeroAndDiscardsWrites : Obligations.RegisterZeroReadsZeroAndDiscardsWrites :=
  fun _ h _ => ⟨h.readReg_zero, rfl⟩

theorem toNat_add_four {n : Nat} (pc : BitVec n) : (pc + 4#n).toNat = (pc.toNat + 4 % 2 ^ n) % 2 ^ n := by
  rw [BitVec.toNat_add, BitVec.toNat_ofNat]

/-- The address space is a multiple of 4 long, so that `pc + 4` is aligned after a wrap too. -/
theorem toNat_add_four_aligned {n : Nat} (hn : 5 ≤ n) {pc : BitVec n} (hpc : pc.toNat % 4 = 0) :
    (pc + 4#n).toNat % 4 = 0 := by
  have hdvd : 4 ∣ 2 ^ n := Nat.pow_dvd_pow 2 (show 2 ≤ n by omega)
  rw [toNat_add_four, Nat.add_mod_mod, Nat.mod_mod_of_dvd _ hdvd]
  omega

/-- Settles O15: a completing instruction ends in `csrNext`, whose `pc` is `pc + 4`. -/
theorem pcAdvancesByFourOnCompletion : Obligations.PcAdvancesByFourOnCompletion := by
  unfold Obligations.PcAdvancesByFourOnCompletion
  intro n h i
  refine ⟨fun hr => ⟨_, exec_of_not_raises hr, rfl, toNat_add_four h.pc, ?_⟩, ?_, ?_⟩
  · exact fun hn hpc => toNat_add_four_aligned hn hpc
  · intro hr hs
    rw [exec_of_raises hr, Hart.raise_stop hs, illegal]
  · intro hf
    obtain ⟨w, hw⟩ := Option.ne_none_iff_exists'.1 hf
    exact (Hart.fetch_eq_some.1 hw).1

/-- A run of `k + 1` steps is a step and a run of `k`. -/
theorem run_succ_eq_next {M : Host.Core} {k : Nat} {s t : M.State} (hrun : M.run (k + 1) s = .next t) :
    ∃ u, M.step s = .next u ∧ M.run k u = .next t := by
  unfold Host.Core.run at hrun
  split at hrun
  next u hu => exact ⟨u, hu, hrun⟩
  next => cases hrun
  next => cases hrun

/-- What a step that goes on does to the parts a run counts, where a raised exception ends the run. -/
theorem step_next_of_stop {n : Nat} {h : Hart n} {t : State} (hs : h.cfg.onTrap = .stop)
    (hstep : step ⟨n, h⟩ = .next t) :
    ∃ u : Hart n, t = ⟨n, u⟩ ∧ u.pc = h.pc + 4#n ∧ u.cfg = h.cfg ∧ u.prog = h.prog ∧
      u.history.length = h.history.length + 1 := by
  obtain ⟨-, w, i, -, -, ⟨-, rfl⟩ | ⟨-, he, -⟩⟩ := step_cases hstep
  · exact ⟨_, rfl, by simp⟩
  · rw [hs] at he; cases he

/-- Settles O52, by induction on the number of steps: each adds 4 to `pc` and one entry to the history, and leaves the
program. -/
theorem runIsAStraightLine : Obligations.RunIsAStraightLine := by
  unfold Obligations.RunIsAStraightLine
  intro k
  induction k with
  | zero =>
    intro n h t _ hrun
    cases hrun
    exact ⟨h, rfl, (Nat.mod_eq_of_lt h.pc.isLt).symm, rfl, rfl⟩
  | succ k ih =>
    intro n h t hs hrun
    obtain ⟨s, hstep, hrun⟩ := run_succ_eq_next hrun
    obtain ⟨m, rfl, hpc, hcfg, hprog, hlen⟩ := step_next_of_stop hs hstep
    obtain ⟨u, rfl, upc, uprog, ulen⟩ := ih n m t (hcfg ▸ hs) hrun
    refine ⟨u, rfl, ?_, uprog.trans hprog, by omega⟩
    calc u.pc.toNat = ((h.pc.toNat + 4 % 2 ^ n) % 2 ^ n + 4 * k) % 2 ^ n := by rw [upc, hpc, toNat_add_four]
      _ = (h.pc.toNat + 4 * (k + 1)) % 2 ^ n := by
        rw [Nat.add_mod_mod, Nat.mod_add_mod]
        congr 1
        omega

end Sys2Proof.Machine
end

section
/-! What a completing instruction leaves in a CSR, in the environment and in the registers: the state after its two
accesses (`Hart.csrAccessed`), and how `ImplicitUpdate` and `rd` follow. -/

namespace Sys2Proof.Machine

/-! ## The merged value -/

/-- The new value of a CSR holding `c`, written by an instruction with operand `m` under the writable mask `wm`: the
table of 95_test_vectors.md. -/
def csrAfterWrite {n : Nat} (op : CsrOp) (c m wm : BitVec n) : BitVec n :=
  match op with
  | .write => (c &&& ~~~wm) ||| (m &&& wm)
  | .set => c ||| (m &&& wm)
  | .clear => c &&& ~~~(m &&& wm)

/-- The value written, merged under the explicit and the writable mask, is the table's. What was read, `t`, does not
matter: where the mask selects a bit, the operand decides it. -/
theorem mergeBits_newValue {n : Nat} (op : CsrOp) (c t m wm : BitVec n) :
    mergeBits c (newValue op t m) (explicitMask op m &&& wm) = csrAfterWrite op c m wm := by
  cases op with
  | write => simp [csrAfterWrite, newValue, explicitMask, mergeBits]
  | set =>
    ext k hk
    simp only [csrAfterWrite, newValue, explicitMask, mergeBits, BitVec.getElem_or, BitVec.getElem_and,
      BitVec.getElem_not]
    cases m[k] <;> cases wm[k] <;> simp
  | clear =>
    ext k hk
    simp only [csrAfterWrite, newValue, explicitMask, mergeBits, BitVec.getElem_or, BitVec.getElem_and,
      BitVec.getElem_not]
    cases m[k] <;> cases wm[k] <;> simp

/-! ## The state after the two accesses -/

theorem Hart.Kept.csrMask {n : Nat} {h k : Hart n} (hk : h.Kept k) (a : CsrNum) : k.csrMask a = h.csrMask a := by
  simp only [Hart.csrMask, hk.cfg]

/-- The state after steps 2 to 4 of `ExecCsr` (40_csr_register_forms.md R63): the read, then the write. -/
def Hart.csrAccessed {n : Nat} (h : Hart n) (op : CsrOp) (src : Operand) (rd : RegNum) (a : CsrNum) : Hart n :=
  (h.readPhase (readsCsr op rd) a).2.writePhase (writesCsr op src.field) a
    (writtenValue op (h.readPhase (readsCsr op rd) a).1 (src.value h)) (explicitMask op (src.value h))

section Accessed

variable {n : Nat} (h : Hart n) (op : CsrOp) (src : Operand) (rd : RegNum) (a : CsrNum)

/-- Step 5 follows the two accesses. -/
theorem Hart.csrEffects_eq (word : InstrWord) : h.csrEffects word op src rd a =
    (h.csrAccessed op src rd a).implicitUpdate word (skipOf (writesCsr op src.field) a) := rfl

theorem Hart.Kept.csrAccessed : h.Kept (h.csrAccessed op src rd a) :=
  (Hart.Kept.readPhase h _ a).trans (.writePhase _ _ a _ _)

theorem Hart.csrNext_env_eq (word : InstrWord) :
    (h.csrNext word op src rd a).env = (h.csrAccessed op src rd a).env := by
  rw [Hart.csrNext_env, Hart.csrEffects_eq, Hart.implicitUpdate_env]

/-- A CSR that execution does not modify by itself, or that the instruction writes, is left by step 5 as the two
accesses left it. -/
theorem Hart.csrNext_getCsr_unmodified (hw : h.cfg.wf = true) (word : InstrWord) {b : CsrNum}
    (hb : (h.cfg.entry b).implicit = .none ∨ (b = a ∧ writesCsr op src.field = true)) :
    (h.csrNext word op src rd a).getCsr b = (h.csrAccessed op src rd a).getCsr b := by
  have hc := (Hart.Kept.csrAccessed h op src rd a).cfg
  rw [Hart.csrNext_getCsr, Hart.csrEffects_eq]
  rcases hb with hb | ⟨rfl, hwrites⟩
  · exact Hart.getCsr_implicitUpdate_none (hc ▸ hw) _ _ (hc ▸ hb)
  · rw [hwrites]
    exact Hart.getCsr_implicitUpdate_skip (hc ▸ hw) word b

/-- Neither access changes a bit of any CSR that is not writable. -/
theorem Hart.csrAccessed_fixed {b : CsrNum} {k : Nat} (hb : (h.csrMask b).getLsbD k = false) :
    ((h.csrAccessed op src rd a).getCsr b).getLsbD k = (h.getCsr b).getLsbD k := by
  have hread : ((h.readPhase (readsCsr op rd) a).2.getCsr b).getLsbD k = (h.getCsr b).getLsbD k := by
    unfold Hart.readPhase
    split
    · exact h.csrRead_fixed a b k hb
    · rfl
  unfold Hart.csrAccessed Hart.writePhase
  split
  · rw [Hart.csrWrite_fixed _ _ _ _ _ _ (by rw [(Hart.Kept.readPhase h _ a).csrMask]; exact hb), hread]
  · exact hread

/-- A read that is not under no law leaves every CSR. -/
theorem Hart.readPhase_getCsr (hr : (h.cfg.entry a).onRead ≠ .free) (reads : Bool) (b : CsrNum) :
    (h.readPhase reads a).2.getCsr b = h.getCsr b := by
  unfold Hart.readPhase
  split
  · exact Hart.csrRead_getCsr hr b
  · rfl

/-- What the two accesses leave in a CSR, where neither is under no law: the named CSR, if written, has the table's
value, every other CSR what it had. -/
theorem Hart.csrAccessed_getCsr (hr : (h.cfg.entry a).onRead ≠ .free) (hn : (h.cfg.entry a).onWrite ≠ .free)
    (b : CsrNum) :
    (h.csrAccessed op src rd a).getCsr b =
      if b = a ∧ writesCsr op src.field = true then csrAfterWrite op (h.getCsr a) (src.value h) (h.csrMask a)
      else h.getCsr b := by
  have hk := Hart.Kept.readPhase h (readsCsr op rd) a
  unfold Hart.csrAccessed Hart.writePhase
  cases writesCsr op src.field with
  | false => simpa using h.readPhase_getCsr a hr _ b
  | true =>
    simp only [if_true, and_true]
    rw [Hart.csrWrite_getCsr (hk.cfg ▸ hn), hk.csrMask, h.readPhase_getCsr a hr, h.readPhase_getCsr a hr,
      writtenValue, mergeBits_newValue]

/-! ## The environment -/

theorem Hart.csrRead_device (hr : (h.cfg.entry a).onRead ≠ .free) :
    (h.csrRead a).2.env.device = h.env.device := by
  unfold Hart.csrRead
  split
  · rfl
  · rfl
  · contradiction

theorem Hart.csrWrite_device (hn : (h.cfg.entry a).onWrite ≠ .free) (v em : BitVec n) :
    (h.csrWrite a v em).env.device = h.env.device := by
  unfold Hart.csrWrite
  split
  · rfl
  · split <;> rfl
  · contradiction

/-- Accesses that are not under no law reach the environment through the bulb alone. -/
theorem Hart.csrAccessed_device (hr : (h.cfg.entry a).onRead ≠ .free) (hn : (h.cfg.entry a).onWrite ≠ .free) :
    (h.csrAccessed op src rd a).env.device = h.env.device := by
  have hread : (h.readPhase (readsCsr op rd) a).2.env.device = h.env.device := by
    unfold Hart.readPhase
    split
    · exact h.csrRead_device a hr
    · rfl
  unfold Hart.csrAccessed Hart.writePhase
  split
  · rw [Hart.csrWrite_device _ a ((Hart.Kept.readPhase h _ a).cfg ▸ hn), hread]
  · exact hread

/-- Accesses without side effects leave the environment. -/
theorem Hart.csrAccessed_env (hr : (h.cfg.entry a).onRead = .none) (hn : (h.cfg.entry a).onWrite = .none) :
    (h.csrAccessed op src rd a).env = h.env := by
  have hread : (h.readPhase (readsCsr op rd) a).2 = h := by
    unfold Hart.readPhase
    split
    · rw [Hart.csrRead_none hr]
    · rfl
  unfold Hart.csrAccessed Hart.writePhase
  rw [hread]
  split
  · rw [Hart.csrWrite_none hn]; rfl
  · rfl

end Accessed

/-! ## The registers -/

/-- An instruction whose destination is not `x0` reads its CSR. -/
theorem readsCsr_of_rd_ne_zero (op : CsrOp) {rd : RegNum} (hrd : rd ≠ 0#5) : readsCsr op rd = true := by
  simp [readsCsr, hrd]

/-- An instruction whose field in bits 19-15 is not zero writes its CSR. -/
theorem writesCsr_of_field_ne_zero (op : CsrOp) {r : BitVec 5} (hr : r ≠ 0#5) : writesCsr op r = true := by
  simp [writesCsr, hr]

section Registers

variable {n : Nat} (h : Hart n) (word : InstrWord) (op : CsrOp) (src : Operand) {rd : RegNum} (a : CsrNum)

/-- `rd`, where it is not `x0`, holds the value read. -/
theorem Hart.csrNext_readReg_rd (hrd : rd ≠ 0#5) : (h.csrNext word op src rd a).readReg rd = (h.csrRead a).1 := by
  rw [Hart.csrNext_readReg, readsCsr_of_rd_ne_zero op hrd]
  exact h.readReg_writeReg_same hrd _

/-- With `rd = x0` no register changes. -/
theorem Hart.csrNext_x_of_rd_zero (hrd : rd = 0#5) : (h.csrNext word op src rd a).x = h.x := by
  subst hrd
  rw [Hart.csrNext_x]
  cases (h.readPhase (readsCsr op 0#5) a).1 <;> rfl

end Registers

/-- The next state an instruction that does not raise answers is `csrNext`. -/
theorem eq_csrNext_of_exec {n : Nat} {h t : Hart n} {i : Instr} (hr : ¬ Raises h i)
    (hx : exec i ⟨n, h⟩ = .next ⟨n, t⟩) : t = h.csrNext (encode i) (opOf i) (srcOf i) (rdOf i) (csrOf i) := by
  rw [exec_of_not_raises hr] at hx
  cases hx
  rfl

end Sys2Proof.Machine
end

section
/-! What each of the six instructions leaves unchanged, and which bits it can change. -/

namespace Sys2Proof.Machine

/-- Settles O16: registers by the law of `rd`, parameters by `csrNext`, CSRs and environment by the laws of the two
accesses. -/
theorem frameOfTheSixInstructions : Obligations.FrameOfTheSixInstructions := by
  unfold Obligations.FrameOfTheSixInstructions
  intro n h t i hraises hx
  obtain rfl := eq_csrNext_of_exec hraises hx
  refine ⟨fun j hj => h.csrNext_readReg_other _ _ _ _ _ hj, h.csrNext_x_of_rd_zero _ _ _ _, h.csrNext_cfg ..,
    fun k => by rw [Hart.csrNext_prog], h.csrNext_draws .., fun hr hn => ⟨?_, ?_, ?_, ?_⟩⟩
  · intro hw b hb hi
    rw [h.csrNext_getCsr_unmodified _ _ _ _ hw _ (.inl hi), h.csrAccessed_getCsr _ _ _ _ hr hn, if_neg (hb ·.1)]
  · intro hw hwrites hi
    rw [h.csrNext_getCsr_unmodified _ _ _ _ hw _ (.inl hi), h.csrAccessed_getCsr _ _ _ _ hr hn,
      if_neg (by simp [hwrites])]
  · rw [Hart.csrNext_env_eq, h.csrAccessed_device _ _ _ _ hr hn]
  · intro hr0 hn0
    rw [Hart.csrNext_env_eq, h.csrAccessed_env _ _ _ _ hr0 hn0]

/-- A bit that is not writable is kept in a CSR that execution does not modify by itself, or that the instruction
writes. -/
theorem Hart.csrNext_fixed {n : Nat} {h : Hart n} (hw : h.cfg.wf = true) (word : InstrWord) (op : CsrOp)
    (src : Operand) (rd : RegNum) (a : CsrNum) {b : CsrNum} {k : Nat}
    (hb : (h.cfg.entry b).implicit = .none ∨ (b = a ∧ writesCsr op src.field = true))
    (hk : (h.cfg.entry b).writable.getLsbD k = false) :
    ((h.csrNext word op src rd a).getCsr b).getLsbD k = (h.getCsr b).getLsbD k := by
  rw [h.csrNext_getCsr_unmodified _ _ _ _ hw _ hb, h.csrAccessed_fixed _ _ _ _ hk]

/-- Settles O41: neither access changes such a bit, and step 5 does not touch such a CSR. -/
theorem nonWritableBitsAreKept : Obligations.NonWritableBitsAreKept := by
  unfold Obligations.NonWritableBitsAreKept
  intro n h i hw hraises
  exact ⟨_, exec_of_not_raises hraises, fun b k hb hk => Hart.csrNext_fixed hw _ _ _ _ _ hb hk⟩

/-- Settles O42: a read-only CSR makes a writing instruction raise; where no bit is writable every bit is kept. -/
theorem readOnlyIsNotNoWritableBit : Obligations.ReadOnlyIsNotNoWritableBit := by
  unfold Obligations.ReadOnlyIsNotNoWritableBit
  intro n h i hacc
  refine ⟨?_, ?_, ?_⟩
  · intro hro hwrites hs
    rw [exec_of_raises (.inr ⟨hwrites, hro⟩), Hart.raise_stop hs, illegal]
  · intro _ hwrites
    exact ⟨_, exec_of_not_raises (by simp [Raises, hacc, hwrites])⟩
  · intro hro hw hwm hi
    refine ⟨_, exec_of_not_raises (by simp [Raises, hacc, hro]), BitVec.eq_of_getLsbD_eq fun k _ => ?_⟩
    exact Hart.csrNext_fixed hw _ _ _ _ _ (.inl hi) (by simp [hwm])

/-- Settles O43: the value in `rd` is the one read, which is clipped to the CSR's width. -/
theorem readIsZeroExtendedFromTheWidth : Obligations.ReadIsZeroExtendedFromTheWidth := by
  unfold Obligations.ReadIsZeroExtendedFromTheWidth
  intro n h i hw hraises
  refine ⟨(Cfg.wf_entry hw _).1, _, exec_of_not_raises hraises, fun _ hrd k hk => ?_⟩
  rw [h.csrNext_readReg_rd _ _ _ _ hrd, ← h.clip_csrRead, getLsbD_clip, decide_eq_false (Nat.not_lt.2 hk)]
  simp

/-- Settles O48: by the laws of `envStep`; with no marked CSR the environment is not active. -/
theorem environmentChangesOnlyMarkedCsrs : Obligations.EnvironmentChangesOnlyMarkedCsrs := by
  unfold Obligations.EnvironmentChangesOnlyMarkedCsrs
  intro n h hw
  refine ⟨h.envStep_x, h.envStep_pc, h.envStep_cfg, h.envStep_prog, fun b hb => Hart.getCsr_envStep_other hw hb, ?_⟩
  intro hnone
  refine Hart.envStep_inactive (List.any_eq_false.2 fun p hp => ?_)
  rw [← Cfg.entry_of_mem hw hp, hnone]
  simp

end Sys2Proof.Machine
end

section
/-! Plain CSRs: the read and the write, the six instructions, and two of them in a row. -/

namespace Sys2Proof.Machine

/-- Settles O23: the write is the merge of the model, and each pair the instructions produce is a row of the table. -/
theorem plainCsrReadAndWrite : Obligations.PlainCsrReadAndWrite := by
  unfold Obligations.PlainCsrReadAndWrite
  intro n h a
  refine ⟨fun hr hclip => by rw [Hart.csrRead_none hr, hclip], fun hn => ?_⟩
  have hnew : ∀ (op : CsrOp) (m : BitVec n),
      (h.csrWrite a (newValue op (h.getCsr a) m) (explicitMask op m)).getCsr a =
        csrAfterWrite op (h.getCsr a) m (h.csrMask a) := by
    intro op m
    rw [Hart.csrWrite_getCsr (by simp [hn]), if_pos rfl, mergeBits_newValue]
  refine ⟨fun v em => ?_, hnew .write, hnew .set, hnew .clear⟩
  rw [Hart.csrWrite_none hn, Hart.storeCsr, mergeBits, BitVec.and_assoc]

/-- What an instruction leaves in the CSR it names, where the accesses are not under no law. -/
theorem Hart.csrNext_getCsr_named {n : Nat} {h : Hart n} {op : CsrOp} {src : Operand} {a : CsrNum}
    (hw : h.cfg.wf = true) (hr : (h.cfg.entry a).onRead ≠ .free) (hn : (h.cfg.entry a).onWrite ≠ .free)
    (hb : writesCsr op src.field = true ∨ (h.cfg.entry a).implicit = .none) (word : InstrWord) (rd : RegNum) :
    (h.csrNext word op src rd a).getCsr a =
      if writesCsr op src.field = true then csrAfterWrite op (h.getCsr a) (src.value h) (h.csrMask a)
      else h.getCsr a := by
  rw [h.csrNext_getCsr_unmodified _ _ _ _ hw _ (hb.symm.imp_right (⟨rfl, ·⟩)), h.csrAccessed_getCsr _ _ _ _ hr hn]
  simp

/-- Settles O24: the new value is the table's row; with a zero field a set or clear does not write. -/
theorem sixInstructionsOnAPlainCsr : Obligations.SixInstructionsOnAPlainCsr := by
  unfold Obligations.SixInstructionsOnAPlainCsr
  intro n h i hw hraises hr hn hb
  refine ⟨_, exec_of_not_raises hraises, ?_, fun hrd => ?_⟩
  · rw [Hart.csrNext_getCsr_named hw hr hn hb]
    cases opOf i with
    | write => simp [csrAfterWrite]
    | set => by_cases hf : (srcOf i).field = 0#5 <;> simp [csrAfterWrite, hf]
    | clear => by_cases hf : (srcOf i).field = 0#5 <;> simp [csrAfterWrite, hf]
  · rw [h.csrNext_readReg_rd _ _ _ _ hrd, Hart.csrRead_value hr]

/-- Every instruction completes on a plain CSR, with the table's value in it and, where `rd` is not `x0`, its old value
in `rd`. -/
theorem exec_plain {n : Nat} {h : Hart n} {i : Instr} {w : Nat} {wm : BitVec n} (hw : h.cfg.wf = true)
    (hp : h.cfg.entry (csrOf i) = CsrEntry.plain w wm) (hwrites : writesCsr (opOf i) (srcOf i).field = true) :
    ∃ t : Hart n, exec i ⟨n, h⟩ = .next ⟨n, t⟩ ∧ t.cfg = h.cfg ∧
      t.getCsr (csrOf i) = csrAfterWrite (opOf i) (h.getCsr (csrOf i)) ((srcOf i).value h) wm ∧
      (rdOf i ≠ 0#5 → t.readReg (rdOf i) = clip w (h.getCsr (csrOf i))) ∧
      (rdOf i = 0#5 → ∀ j, t.readReg j = h.readReg j) := by
  have hraises : ¬ Raises h i := by simp [Raises, Hart.csrAccessible, Hart.csrReadOnly, hp, CsrEntry.plain]
  have hr : (h.cfg.entry (csrOf i)).onRead ≠ .free := by simp [hp, CsrEntry.plain]
  have hn : (h.cfg.entry (csrOf i)).onWrite ≠ .free := by simp [hp, CsrEntry.plain]
  refine ⟨_, exec_of_not_raises hraises, h.csrNext_cfg .., ?_, fun hrd => ?_, fun hrd => ?_⟩
  · rw [Hart.csrNext_getCsr_named hw hr hn (.inl hwrites), if_pos hwrites, Hart.csrMask, hp]
    rfl
  · rw [h.csrNext_readReg_rd _ _ _ _ hrd, Hart.csrRead_value hr, hp]
    rfl
  · exact Hart.readReg_congr (h.csrNext_x_of_rd_zero _ _ _ _ hrd)

/-- Two instructions in a row on a plain CSR with one source register, the first with `rd = x0`: the second meets the
same configuration and operand, and the CSR as the first left it. -/
theorem exec_plain_twice {n : Nat} {h : Hart n} {i j : Instr} {a : CsrNum} {w : Nat} {wm : BitVec n} {r : RegNum}
    (hw : h.cfg.wf = true) (hp : h.cfg.entry a = CsrEntry.plain w wm) (hr : r ≠ 0#5)
    (hi : csrOf i = a ∧ srcOf i = .reg r ∧ rdOf i = 0#5) (hj : csrOf j = a ∧ srcOf j = .reg r) :
    ∃ t u : Hart n, exec i ⟨n, h⟩ = .next ⟨n, t⟩ ∧ exec j ⟨n, t⟩ = .next ⟨n, u⟩ ∧
      u.getCsr a = csrAfterWrite (opOf j) (csrAfterWrite (opOf i) (h.getCsr a) (h.readReg r) wm) (h.readReg r) wm := by
  obtain ⟨rfl, hsrc, hrd⟩ := hi
  obtain ⟨ha, hsrc'⟩ := hj
  have hwrites := fun op => writesCsr_of_field_ne_zero op hr
  obtain ⟨t, ht, hcfg, hget, -, hreg⟩ := exec_plain hw hp (by rw [hsrc]; exact hwrites _)
  obtain ⟨u, hu, -, hget', -, -⟩ :=
    exec_plain (i := j) (hcfg ▸ hw) (by rw [hcfg, ha]; exact hp) (by rw [hsrc']; exact hwrites _)
  refine ⟨t, u, ht, hu, ?_⟩
  rw [ha, hsrc', Operand.value_reg, hreg hrd, hget, hsrc, Operand.value_reg] at hget'
  exact hget'

theorem csrAfterWrite_clear_set {n : Nat} (c m wm : BitVec n) :
    csrAfterWrite .clear (csrAfterWrite .set c m wm) m wm = c &&& ~~~(m &&& wm) := by
  ext k hk
  simp only [csrAfterWrite, BitVec.getElem_and, BitVec.getElem_or, BitVec.getElem_not]
  cases m[k] <;> cases wm[k] <;> simp

theorem csrAfterWrite_set_clear {n : Nat} (c m wm : BitVec n) :
    csrAfterWrite .set (csrAfterWrite .clear c m wm) m wm = c ||| (m &&& wm) := by
  ext k hk
  simp only [csrAfterWrite, BitVec.getElem_and, BitVec.getElem_or, BitVec.getElem_not]
  cases m[k] <;> cases wm[k] <;> simp

/-- A write to a CSR with every bit writable gives the operand. -/
theorem csrAfterWrite_write_ones {n : Nat} (c m : BitVec n) : csrAfterWrite .write c m (ones n) = m := by
  simp [csrAfterWrite]

/-- CSRRW with `rd = rs1` on a plain CSR with every bit writable exchanges the two. -/
theorem exec_csrrw_swap {n : Nat} {h : Hart n} {a : CsrNum} {r : RegNum} (hw : h.cfg.wf = true)
    (hp : h.cfg.entry a = CsrEntry.plain n (ones n)) (hr : r ≠ 0#5) :
    ∃ t : Hart n, exec (.csrrw r a r) ⟨n, h⟩ = .next ⟨n, t⟩ ∧ t.cfg = h.cfg ∧
      t.getCsr a = h.readReg r ∧ t.readReg r = h.getCsr a := by
  obtain ⟨t, ht, hcfg, hget, hreg, -⟩ := exec_plain (i := .csrrw r a r) hw hp rfl
  exact ⟨t, ht, hcfg, hget.trans (csrAfterWrite_write_ones _ _), (hreg hr).trans (clip_of_le le_rfl _)⟩

/-- Settles O25: set and clear by `exec_plain_twice` and what the two do to each bit, the swaps by `exec_csrrw_swap`. -/
theorem setClearAndSwapInSequence : Obligations.SetClearAndSwapInSequence := by
  unfold Obligations.SetClearAndSwapInSequence
  intro n h a w wm r hw hp hr
  refine ⟨?_, ?_, ?_⟩
  · rw [← csrAfterWrite_clear_set]
    exact exec_plain_twice hw hp hr ⟨rfl, rfl, rfl⟩ ⟨rfl, rfl⟩
  · rw [← csrAfterWrite_set_clear]
    exact exec_plain_twice hw hp hr ⟨rfl, rfl, rfl⟩ ⟨rfl, rfl⟩
  · rintro rfl rfl
    obtain ⟨t, ht, hcfg, htc, htr⟩ := exec_csrrw_swap hw hp hr
    obtain ⟨u, hu, -, huc, hur⟩ := exec_csrrw_swap (h := t) (hcfg ▸ hw) (hcfg ▸ hp) hr
    exact ⟨t, u, ht, hu, huc.trans htr, hur.trans htc⟩

end Sys2Proof.Machine
end

section
/-! Which registers an instruction reads and writes (10_state.md R13): where every access is one the spec gives, the
accesses and `ImplicitUpdate` see neither the registers nor the instruction word, so that an instruction reads the
registers through its operand alone. -/

namespace Sys2Proof.Machine

/-! ## A settled configuration -/

theorem Cfg.settled.access {n : Nat} {c : Cfg n} (hc : Cfg.settled c) (a : CsrNum) : (c.entry a).access ≠ .depends :=
  (hc a).1

theorem Cfg.settled.onRead {n : Nat} {c : Cfg n} (hc : Cfg.settled c) (a : CsrNum) : (c.entry a).onRead ≠ .free :=
  (hc a).2.1

theorem Cfg.settled.onWrite {n : Nat} {c : Cfg n} (hc : Cfg.settled c) (a : CsrNum) : (c.entry a).onWrite ≠ .free :=
  (hc a).2.2.1

theorem Cfg.settled.implicit {n : Nat} {c : Cfg n} (hc : Cfg.settled c) (a : CsrNum) : (c.entry a).implicit ≠ .free :=
  (hc a).2.2.2

/-! ## A write to the light bulb's CSR -/

theorem Hart.csrWrite_odd {n : Nat} {h : Hart n} {a : CsrNum} {v em : BitVec n}
    (hn : (h.cfg.entry a).onWrite = .bulbOffWhenOdd) (hodd : ((h.storeCsr a v em).getCsr a).getLsbD 0 = true) :
    h.csrWrite a v em = (h.storeCsr a v em).setBulb false := by
  unfold Hart.csrWrite; rw [hn]; exact if_pos hodd

theorem Hart.csrWrite_even {n : Nat} {h : Hart n} {a : CsrNum} {v em : BitVec n}
    (hn : (h.cfg.entry a).onWrite = .bulbOffWhenOdd) (heven : ¬ ((h.storeCsr a v em).getCsr a).getLsbD 0 = true) :
    h.csrWrite a v em = h.storeCsr a v em := by
  unfold Hart.csrWrite; rw [hn]; exact if_neg heven

/-! ## The same hart with other registers -/

section SameButRegisters

variable {n : Nat} {h : Hart n} (x : Vector (BitVec n) 31)

theorem Hart.csrRead_withRegs {a : CsrNum} (hr : (h.cfg.entry a).onRead ≠ .free) :
    Hart.csrRead { h with x := x } a = ((h.csrRead a).1, { (h.csrRead a).2 with x := x }) := by
  cases hk : (h.cfg.entry a).onRead with
  | none => rw [Hart.csrRead_none hk, Hart.csrRead_none (h := { h with x := x }) hk]; rfl
  | bulbOn => rw [Hart.csrRead_bulbOn hk, Hart.csrRead_bulbOn (h := { h with x := x }) hk]; rfl
  | free => contradiction

theorem Hart.csrWrite_withRegs {a : CsrNum} (hn : (h.cfg.entry a).onWrite ≠ .free) (v em : BitVec n) :
    Hart.csrWrite { h with x := x } a v em = { h.csrWrite a v em with x := x } := by
  cases hk : (h.cfg.entry a).onWrite with
  | none => rw [Hart.csrWrite_none hk, Hart.csrWrite_none (h := { h with x := x }) hk]; rfl
  | bulbOffWhenOdd =>
    by_cases hodd : ((h.storeCsr a v em).getCsr a).getLsbD 0 = true
    · rw [Hart.csrWrite_odd hk hodd, Hart.csrWrite_odd (h := { h with x := x }) hk hodd]; rfl
    · rw [Hart.csrWrite_even hk hodd, Hart.csrWrite_even (h := { h with x := x }) hk hodd]; rfl
  | free => contradiction

/-- `updateEach` takes from its function only the values at the entries it lists, and carries the registers along. -/
theorem Hart.updateEach_withRegs {f g : CsrNum → CsrEntry n → Option (BitVec n)} {l : List (CsrNum × CsrEntry n)}
    (hfg : ∀ p ∈ l, f p.1 p.2 = g p.1 p.2) (h : Hart n) :
    Hart.updateEach f l { h with x := x } = { Hart.updateEach g l h with x := x } := by
  induction l generalizing h with
  | nil => rfl
  | cons p t ih =>
    obtain ⟨b, e⟩ := p
    have hhead : f b e = g b e := hfg (b, e) (.head _)
    have htail := fun p hp => hfg p (.tail _ hp)
    simp only [Hart.updateEach, hhead]
    cases g b e with
    | none => exact ih htail h
    | some v => exact ih htail (h.setCsr b (clip e.width v))

/-- An implicit update that is not under no law depends on neither the instruction word nor the registers. -/
theorem Hart.implicitUpdate_withRegs (hw : h.cfg.wf = true) (hi : ∀ b, (h.cfg.entry b).implicit ≠ .free)
    (word word' : InstrWord) (skip : Option CsrNum) :
    Hart.implicitUpdate { h with x := x } word' skip = { h.implicitUpdate word skip with x := x } := by
  refine Hart.updateEach_withRegs x (fun p hp => ?_) h
  have he : p.2.implicit ≠ .free := Cfg.entry_of_mem hw hp ▸ hi p.1
  simp only [implicitValue]
  cases hk : p.2.implicit with
  | none => rfl
  | count => rfl
  | free => contradiction

theorem Hart.readPhase_withRegs {a : CsrNum} (hr : (h.cfg.entry a).onRead ≠ .free) (reads : Bool) :
    Hart.readPhase { h with x := x } reads a =
      ((h.readPhase reads a).1, { (h.readPhase reads a).2 with x := x }) := by
  cases reads with
  | false => rfl
  | true => simp only [Hart.readPhase, Hart.csrRead_withRegs x hr, if_true]

/-- The two accesses depend on the registers through the operand, and on `rd` through whether the CSR is read. -/
theorem Hart.csrAccessed_withRegs {op : CsrOp} {src : Operand} {rd rd' : RegNum} {a : CsrNum}
    (hr : (h.cfg.entry a).onRead ≠ .free) (hn : (h.cfg.entry a).onWrite ≠ .free)
    (hsrc : src.value { h with x := x } = src.value h) (hrd : readsCsr op rd' = readsCsr op rd) :
    Hart.csrAccessed { h with x := x } op src rd' a = { h.csrAccessed op src rd a with x := x } := by
  have hcfg := (Hart.Kept.readPhase h (readsCsr op rd) a).cfg
  unfold Hart.csrAccessed Hart.writePhase
  rw [hrd, Hart.readPhase_withRegs x hr, hsrc]
  split
  · exact Hart.csrWrite_withRegs x (hcfg ▸ hn) _ _
  · rfl

/-- The effects of steps 2 to 5 depend on no more than the two accesses do, and not on the instruction word. -/
theorem Hart.csrEffects_withRegs (hw : h.cfg.wf = true) (hc : Cfg.settled h.cfg) {op : CsrOp} {src : Operand}
    {rd rd' : RegNum} (hsrc : src.value { h with x := x } = src.value h) (hrd : readsCsr op rd' = readsCsr op rd)
    (word word' : InstrWord) (a : CsrNum) :
    Hart.csrEffects { h with x := x } word' op src rd' a = { h.csrEffects word op src rd a with x := x } := by
  have hcfg := (Hart.Kept.csrAccessed h op src rd a).cfg
  rw [Hart.csrEffects_eq, Hart.csrEffects_eq, Hart.csrAccessed_withRegs x (hc.onRead a) (hc.onWrite a) hsrc hrd]
  exact Hart.implicitUpdate_withRegs x (hcfg ▸ hw) (hcfg ▸ hc.implicit) word word' _

/-- Where no CSR's accessibility is left to the state, whether an instruction raises does not depend on the
registers. -/
theorem raises_withRegs (hc : Cfg.settled h.cfg) (i : Instr) : Raises { h with x := x } i ↔ Raises h i := by
  have hacc : Hart.csrAccessible { h with x := x } (csrOf i) = h.csrAccessible (csrOf i) := by
    unfold Hart.csrAccessible
    cases hk : (h.cfg.entry (csrOf i)).access with
    | always => rfl
    | never => rfl
    | depends => exact absurd hk (hc.access _)
  unfold Raises
  rw [hacc]
  rfl

/-- The operand is the same where its register is; `x0` is always. -/
theorem Operand.value_withRegs {src : Operand}
    (hx : ∀ r, src = .reg r → r ≠ 0#5 → Hart.readReg { h with x := x } r = h.readReg r) :
    src.value { h with x := x } = src.value h := by
  cases src with
  | imm u => rfl
  | reg r =>
    by_cases hr : r = 0#5
    · subst hr; rfl
    · exact hx r rfl hr

end SameButRegisters

/-- The state an instruction that writes leaves its CSRs in: only a write form goes without the read, and it does not
use the value. -/
theorem Hart.csrNext_csr_of_writes {n : Nat} (h : Hart n) (word : InstrWord) {op : CsrOp} {src : Operand}
    (rd : RegNum) (a : CsrNum) (hwrites : writesCsr op src.field = true) :
    (h.csrNext word op src rd a).csr =
      (((if readsCsr op rd = true then (h.csrRead a).2 else h).csrWrite a
        (newValue op (h.csrRead a).1 (src.value h)) (explicitMask op (src.value h))).implicitUpdate word
          (some a)).csr := by
  rw [Hart.csrNext_csr, Hart.csrEffects_eq, Hart.csrAccessed, hwrites, Hart.writePhase, if_pos rfl, skipOf, if_pos rfl]
  cases hreads : readsCsr op rd with
  | true => rfl
  | false =>
    have hop : op = .write := by
      by_contra hne
      simp [readsCsr, hne] at hreads
    subst hop
    rfl

/-- Settles O59: the registers are read through the operand alone (`csrEffects_withRegs`) and only `rd` is written. -/
theorem registersReadAndWritten : Obligations.RegistersReadAndWritten := by
  unfold Obligations.RegistersReadAndWritten
  intro n h i hw hc hraises
  refine ⟨h.readReg_zero, _, exec_of_not_raises hraises, fun j hj => h.csrNext_readReg_other _ _ _ _ _ hj,
    h.csrNext_x_of_rd_zero _ _ _ _, h.csrNext_readReg_rd _ _ _ _, ?_, ?_, ?_⟩
  case refine_1 =>
    intro r hsrc hwrites
    have hvalue : h.readReg r = (srcOf i).value h := by rw [hsrc]; rfl
    rw [hvalue]
    exact h.csrNext_csr_of_writes _ _ _ (by rw [hsrc]; exact hwrites)
  case refine_2 =>
    intro x hx
    have heffects := Hart.csrEffects_withRegs x hw hc (op := opOf i) (rd := rdOf i) (Operand.value_withRegs x hx) rfl
      (encode i) (encode i) (csrOf i)
    refine ⟨_, exec_of_not_raises (mt (raises_withRegs x hc i).1 hraises), ?_, ?_, fun hrd => ?_⟩
    · rw [Hart.csrNext_csr, Hart.csrNext_csr, heffects]
    · rw [Hart.csrNext_env, Hart.csrNext_env, heffects]
    · rw [Hart.csrNext_readReg_rd _ _ _ _ _ hrd, Hart.csrNext_readReg_rd _ _ _ _ _ hrd,
        Hart.csrRead_withRegs x (hc.onRead _)]
  case refine_3 =>
    intro j hop hsrc ha hrd hrd'
    have hreads : readsCsr (opOf i) (rdOf j) = readsCsr (opOf i) (rdOf i) := by
      rw [readsCsr_of_rd_ne_zero _ hrd, readsCsr_of_rd_ne_zero _ hrd']
    -- the registers stay as they are: only the word and `rd` differ
    have heffects := Hart.csrEffects_withRegs h.x hw hc (src := srcOf i) rfl hreads (encode i) (encode j) (csrOf i)
    have hraises' : ¬ Raises h j := by unfold Raises; rw [hop, hsrc, ha]; exact hraises
    refine ⟨_, exec_of_not_raises hraises', ?_, ?_⟩
    · rw [Hart.csrNext_csr, Hart.csrNext_csr, hop, hsrc, ha]
      exact congrArg (·.csr) heffects
    · rw [Hart.csrNext_env, Hart.csrNext_env, hop, hsrc, ha]
      exact congrArg (·.env) heffects

end Sys2Proof.Machine
end

section
/-! Fetching, and what every step keeps: the program, the configuration and the alignment of `pc`. -/

namespace Sys2Proof.Machine

/-- Where there is no word to fetch the hart is stuck (20_memory.md R31). -/
theorem step_of_fetch_none {n : Nat} {h : Hart n} (hw : h.cfg.wf = true) (hf : h.fetch = none) :
    step ⟨n, h⟩ = .fault (.stuck h.pc.toNat) := by
  simp [step, hartStep, hw, hf]

/-- A misaligned `pc` fetches nothing (20_memory.md R33). -/
theorem Hart.fetch_of_misaligned {n : Nat} {h : Hart n} (hpc : h.pc.toNat % 4 ≠ 0) : h.fetch = none :=
  Option.eq_none_iff_forall_ne_some.2 fun _ hf => hpc (Hart.fetch_eq_some.1 hf).1

/-- Settles O11: a misaligned `pc` fetches nothing, and a step that goes on adds 4, in an address space that is a
multiple of 4 long. -/
theorem stepKeepsPcAligned : Obligations.StepKeepsPcAligned := by
  unfold Obligations.StepKeepsPcAligned
  refine ⟨fun n h hw hpc => step_of_fetch_none hw (Hart.fetch_of_misaligned hpc), ?_⟩
  rintro ⟨n, h⟩ t hs hpc hstep
  obtain ⟨hw, -⟩ := step_cases hstep
  obtain ⟨u, rfl, hu, -⟩ := step_next_of_stop hs hstep
  simpa only [hu] using toNat_add_four_aligned (Cfg.wf_width hw) hpc

/-- Settles O12: neither an instruction that completes nor one that enters its trap, nor the environment's move after
it, reaches the parameters. -/
theorem stepLeavesProgramAndConfiguration : Obligations.StepLeavesProgramAndConfiguration := by
  unfold Obligations.StepLeavesProgramAndConfiguration
  intro n h t hstep
  obtain ⟨-, w, i, -, -, ⟨-, rfl⟩ | ⟨-, -, rfl⟩⟩ := step_cases hstep
  · exact ⟨_, rfl, by simp⟩
  · exact ⟨_, rfl, by simp⟩

/-- Settles O9: the fetch law and the law of `readWord`, whose word is the four bytes joined. -/
theorem fetchIsTheLittleEndianWordAtPc : Obligations.FetchIsTheLittleEndianWordAtPc := by
  unfold Obligations.FetchIsTheLittleEndianWordAtPc
  refine ⟨fun n h w => ?_, fun n h => step_of_fetch_none⟩
  simp only [Hart.fetch_eq_some, Memory.readWord_eq_some, wordOfBytes, eq_comm (a := w)]

theorem alignedPc_of_aligned {n : Nat} {pc : BitVec n} (hpc : pc.toNat % 4 = 0) : alignedPc pc = pc :=
  BitVec.eq_of_toNat_eq (by rw [toNat_alignedPc, hpc, Nat.sub_zero])

/-- Settles O10: the word placed is the one fetched, and its four bytes are all that is written. -/
theorem placedWordIsFetched : Obligations.PlacedWordIsFetched := by
  unfold Obligations.PlacedWordIsFetched
  intro n h nbits w
  refine ⟨_, rfl, h.fetch_withFetchWord _, rfl, rfl, rfl, rfl, rfl, rfl, rfl, alignedPc_of_aligned, ?_⟩
  exact fun k hk => Memory.read_writeBytes_other _ (bytesOfWord _) hk

end Sys2Proof.Machine
end

section
/-! The event history: what an instruction's entry holds (20_memory.md R49), and how the accesses it records relate to
the registers and the CSRs. -/

namespace Sys2Proof.Machine

/-! ## One instruction's entry -/

section Entry

variable {n : Nat} (h : Hart n) (op : CsrOp) (src : Operand) (rd : RegNum) (a : CsrNum)

/-- The value computed does not depend on whether there was a read: `W`, which alone may not read, does not use it. -/
theorem Hart.writtenValue_readPhase (m : BitVec n) :
    writtenValue op (h.readPhase (readsCsr op rd) a).1 m = newValue op (h.csrRead a).1 m := by
  cases op with
  | write => rfl
  | set => simp [writtenValue, Hart.readPhase]
  | clear => simp [writtenValue, Hart.readPhase]

theorem Hart.accessOf_read :
    (h.accessOf op src rd a).read = if readsCsr op rd then some (h.csrRead a).1 else none := by
  simp only [Hart.accessOf, Hart.readPhase]
  split <;> rfl

theorem Hart.accessOf_written : (h.accessOf op src rd a).written =
    if writesCsr op src.field then some (newValue op (h.csrRead a).1 (src.value h)) else none := by
  simp only [Hart.accessOf, Hart.writtenValue_readPhase]

/-- The events of the entry: a read where the instruction reads, a write where it writes. -/
theorem Hart.events_accessOf (k : Nat) : (h.accessOf op src rd a).events k =
    (if readsCsr op rd = true then [⟨k, .deviceInput, a, (h.csrRead a).1⟩] else []) ++
    (if writesCsr op src.field = true
      then [⟨k, .deviceOutput, a, newValue op (h.csrRead a).1 (src.value h)⟩] else []) := by
  have hnum : (h.accessOf op src rd a).num = a := rfl
  rw [CsrAccess.events, Hart.accessOf_read, Hart.accessOf_written, hnum]
  cases readsCsr op rd <;> cases writesCsr op src.field <;> rfl

/-- The two accesses of an instruction that writes: the write, in the state the read left. -/
theorem Hart.csrAccessed_of_writes (hw : writesCsr op src.field = true) : h.csrAccessed op src rd a =
    (if readsCsr op rd = true then (h.csrRead a).2 else h).csrWrite a (newValue op (h.csrRead a).1 (src.value h))
      (explicitMask op (src.value h)) := by
  rw [Hart.csrAccessed, Hart.writtenValue_readPhase, Hart.writePhase, if_pos hw, Hart.readPhase]
  split <;> rfl

end Entry

/-! ## The obligations -/

/-- Settles O40: the value recorded as read is the one `rd` gets; and the CSR written is the one step 5 skips, so that
what the write left in it stands. -/
theorem explicitWriteOverridesImplicit : Obligations.ExplicitWriteOverridesImplicit := by
  unfold Obligations.ExplicitWriteOverridesImplicit
  intro n h i hw hraises
  refine ⟨_, _, exec_of_not_raises hraises, rfl, fun v hv => ?_, fun v hv => ?_⟩
  · simp only [Hart.accessOf_read, Option.ite_none_right_eq_some, Option.some.injEq] at hv
    obtain ⟨-, rfl⟩ := hv
    exact ⟨rfl, fun hrd => h.csrNext_readReg_rd _ _ _ _ hrd⟩
  · simp only [Hart.accessOf_written, Option.ite_none_right_eq_some, Option.some.injEq] at hv
    obtain ⟨hwrites, rfl⟩ := hv
    rw [h.csrNext_getCsr_unmodified _ _ _ _ hw _ (.inr ⟨rfl, hwrites⟩), h.csrAccessed_of_writes _ _ _ _ hwrites,
      Hart.accessOf_read]
    cases readsCsr (opOf i) (rdOf i) <;> rfl

/-- Settles O49: the classes are those of the entry's events. -/
theorem accessClassesForFence : Obligations.AccessClassesForFence := by
  unfold Obligations.AccessClassesForFence
  intro n h i hraises
  refine ⟨_, _, exec_of_not_raises hraises, rfl, ?_⟩
  rw [Hart.events_accessOf]
  cases readsCsr (opOf i) (rdOf i) <;> cases writesCsr (opOf i) (srcOf i).field <;> rfl

/-- Settles O50: the completed instruction adds its own entry's events, and no others. -/
theorem historyRecordsEachAccess : Obligations.HistoryRecordsEachAccess := by
  unfold Obligations.HistoryRecordsEachAccess
  intro n h i hraises
  refine ⟨_, exec_of_not_raises hraises, ?_⟩
  rw [Hart.csrNext_history, eventsOf, Hart.events_accessOf, List.append_assoc]

end Sys2Proof.Machine
end

section
/-! The order in which others may see the accesses (20_memory.md R40): the laws of `mayReorder`, `unsplit` and
`inProgramOrder`, and from them those of `observable`. -/

namespace Sys2Proof.Machine

/-! ## Lists -/

/-- In a list without repetitions two elements stand in one order only. -/
theorem not_sublist_swap {α : Type} {p : List α} (hp : p.Nodup) {e f : α} (hef : List.Sublist [e, f] p) :
    ¬ List.Sublist [f, e] p := by
  induction p with
  | nil => cases hef
  | cons x p ih =>
    obtain ⟨hx, hp⟩ := List.nodup_cons.1 hp
    intro hfe
    have hmem {a b : α} (h : List.Sublist [a, b] p) : a ∈ p ∧ b ∈ p := ⟨h.subset (by simp), h.subset (by simp)⟩
    cases hef with
    | cons _ hef =>
      cases hfe with
      | cons _ hfe => exact ih hp hef hfe
      | cons_cons _ _ => exact hx (hmem hef).2
    | cons_cons _ hf =>
      cases hfe with
      | cons _ hfe => exact hx (hmem hfe).2
      | cons_cons _ _ => exact hx (List.singleton_sublist.1 hf)

/-- Two elements stand in this order in `p ++ q` where they do in one of the two, or the first is of `p`, the second of
`q`. -/
theorem pair_sublist_append {α : Type} {e f : α} {p q : List α} :
    List.Sublist [e, f] (p ++ q) ↔ List.Sublist [e, f] p ∨ List.Sublist [e, f] q ∨ (e ∈ p ∧ f ∈ q) := by
  simp only [List.sublist_append_iff, List.cons_eq_append_iff]
  constructor
  · rintro ⟨u, v, ⟨rfl, rfl⟩ | ⟨u, rfl, ⟨rfl, rfl⟩ | ⟨u, rfl, h⟩⟩, hu, hv⟩
    · exact .inr (.inl hv)
    · exact .inr (.inr ⟨List.singleton_sublist.1 hu, List.singleton_sublist.1 hv⟩)
    · obtain ⟨rfl, rfl⟩ := List.append_eq_nil_iff.1 h.symm
      exact .inl hu
  · rintro (h | h | ⟨he, hf⟩)
    · exact ⟨[e, f], [], by simp, h, List.nil_sublist q⟩
    · exact ⟨[], [e, f], by simp, List.nil_sublist p, h⟩
    · exact ⟨[e], [f], by simp, List.singleton_sublist.2 he, List.singleton_sublist.2 hf⟩

/-- Swapping two blocks brings no two elements into another order but one of each block. -/
theorem sublist_or_mem_of_sublist_swap {α : Type} {l A B r : List α} {e f : α}
    (h : List.Sublist [f, e] (l ++ B ++ A ++ r)) : List.Sublist [f, e] (l ++ A ++ B ++ r) ∨ (e ∈ A ∧ f ∈ B) := by
  simp only [pair_sublist_append, List.mem_append] at h ⊢
  tauto

section Observers

variable {n : Nat} {c : Cfg n}

/-! ## `mayReorder` -/

/-- Two accesses of different instructions to CSRs that are not strongly ordered are weakly ordered. -/
theorem mayReorder_of_not_strong {e f : CsrEvent n} (hi : e.instr ≠ f.instr) (he : Cfg.strong c e.num = false)
    (hf : Cfg.strong c f.num = false) : mayReorder c e f = true := by
  simp [mayReorder, hi, he, hf]

/-- The accesses of one instruction keep their order. -/
theorem instr_ne_of_mayReorder {e f : CsrEvent n} (h : mayReorder c e f = true) : e.instr ≠ f.instr :=
  of_decide_eq_true (Bool.and_eq_true_iff.1 h).1

/-! ## `unsplit` -/

/-- Where instructions follow each other, what stands between two accesses of one is of that one. -/
theorem unsplit_of_pairwise {p : List (CsrEvent n)} (hp : p.Pairwise fun e f => e.instr ≤ f.instr) : unsplit p := by
  intro e g f hsub hef
  have hpairs := hp.sublist hsub
  simp only [List.pairwise_cons, List.mem_cons] at hpairs
  obtain ⟨he, hg, -⟩ := hpairs
  have heg : e.instr ≤ g.instr := he g (.inl rfl)
  have hgf : g.instr ≤ f.instr := hg f (.inl rfl)
  omega

/-- Two parts that share no instruction can stand one after the other. -/
theorem unsplit_append {p q : List (CsrEvent n)} (hp : unsplit p) (hq : unsplit q)
    (hne : ∀ e ∈ p, ∀ f ∈ q, e.instr ≠ f.instr) : unsplit (p ++ q) := by
  intro e g f hsub hef
  obtain ⟨u, v, huv, hu, hv⟩ := List.sublist_append_iff.1 hsub
  rcases u with _ | ⟨a, u⟩
  · exact hq e g f (huv ▸ hv) hef
  rcases v.eq_nil_or_concat' with rfl | ⟨v, b, rfl⟩
  · exact hp e g f (by rwa [huv, List.append_nil]) hef
  -- `e` is the first of a part of `p`, `f` the last of a part of `q`
  have he : e = a := by simpa using congrArg List.head? huv
  have hf : f = b := Option.some.inj <| (congrArg List.getLast? huv).trans (by
    rw [← List.append_assoc, List.getLast?_concat])
  exact absurd hef (hne e (hu.subset (by simp [he])) f (hv.subset (by simp [hf])))

/-! ## The events of a history -/

theorem instr_of_mem_events {x : CsrAccess n} {k : Nat} {e : CsrEvent n} (he : e ∈ x.events k) : e.instr = k := by
  unfold CsrAccess.events at he
  rcases List.mem_append.1 he with he | he
  all_goals
    split at he
    · rw [List.mem_singleton.1 he]
    · cases he

theorem nodup_events (x : CsrAccess n) (k : Nat) : (x.events k).Nodup := by
  unfold CsrAccess.events
  cases x.read <;> cases x.written <;> simp

/-- The completed instructions are numbered from 0. -/
theorem instr_lt_of_mem_eventsOf {hist : List (CsrAccess n)} {e : CsrEvent n} (he : e ∈ eventsOf hist) :
    e.instr < hist.length := by
  induction hist with
  | nil => cases he
  | cons x older ih =>
    rw [List.length_cons]
    rcases List.mem_append.1 he with he | he
    · exact Nat.lt_succ_of_lt (ih he)
    · exact instr_of_mem_events he ▸ Nat.lt_succ_self _

theorem inProgramOrder_eventsOf (hist : List (CsrAccess n)) : inProgramOrder (eventsOf hist) := by
  induction hist with
  | nil => exact ⟨.nil, .nil⟩
  | cons x older ih =>
    obtain ⟨hnodup, hsorted⟩ := ih
    have hlt : ∀ e ∈ eventsOf older, ∀ f ∈ x.events older.length, e.instr < f.instr := fun e he f hf =>
      instr_of_mem_events hf ▸ instr_lt_of_mem_eventsOf he
    refine ⟨List.nodup_append.2 ⟨hnodup, nodup_events x _, ?_⟩, List.pairwise_append.2 ⟨hsorted, ?_, ?_⟩⟩
    · rintro e he f hf rfl
      exact (hlt e he e hf).false
    · exact List.pairwise_of_forall_mem_list fun e he f hf =>
        ((instr_of_mem_events he).trans (instr_of_mem_events hf).symm).le
    · exact fun e he f hf => (hlt e he f hf).le

/-! ## What others may see -/

/-- Two weakly ordered accesses of different instructions. -/
theorem observable_pair {e f : CsrEvent n} (hi : e.instr ≠ f.instr) (he : Cfg.strong c e.num = false)
    (hf : Cfg.strong c f.num = false) : observable c [e, f] [f, e] := by
  refine ⟨.swap e f [], fun e' f' hp _ => ?_, fun _ _ _ h => absurd h.length_le (by simp)⟩
  obtain ⟨rfl, rfl⟩ : e' = e ∧ f' = f := by simpa using hp.eq_of_length rfl
  exact mayReorder_of_not_strong hi he hf

/-- Others may see program order. -/
theorem observable_self {p : List (CsrEvent n)} (hp : inProgramOrder p) : observable c p p :=
  ⟨.refl p, fun _ _ hef hfe => absurd hfe (not_sublist_swap hp.1 hef), unsplit_of_pairwise hp.2⟩

/-- Blocks swapped stay whole: in program order, where each of the two holds an access, no two of the four parts share
an instruction. -/
theorem unsplit_swap {l A B r : List (CsrEvent n)}
    (hp : (l ++ A ++ B ++ r).Pairwise fun e f => e.instr ≤ f.instr) (hA : A ≠ []) (hB : B ≠ [])
    (hlA : ∀ e ∈ l, ∀ f ∈ A, e.instr ≠ f.instr) (hAB : ∀ e ∈ A, ∀ f ∈ B, e.instr ≠ f.instr)
    (hBr : ∀ e ∈ B, ∀ f ∈ r, e.instr ≠ f.instr) : unsplit (l ++ B ++ A ++ r) := by
  obtain ⟨a, ha⟩ := List.exists_mem_of_ne_nil A hA
  obtain ⟨b, hb⟩ := List.exists_mem_of_ne_nil B hB
  simp only [List.pairwise_append, List.mem_append] at hp
  obtain ⟨⟨⟨sl, sA, le_lA⟩, sB, le_lAB⟩, sr, le_lABr⟩ := hp
  have hlB : ∀ e ∈ l, ∀ f ∈ B, e.instr ≠ f.instr := fun e he f hf => by
    have := hlA e he a ha
    have := le_lA e he a ha
    have := le_lAB a (.inr ha) f hf
    omega
  have hlAr : ∀ e, e ∈ l ∨ e ∈ A → ∀ f ∈ r, e.instr ≠ f.instr := fun e he f hf => by
    have := le_lAB e he b hb
    have := le_lABr b (.inr hb) f hf
    have := hBr b hb f hf
    omega
  refine unsplit_append (unsplit_append (unsplit_append ?_ ?_ hlB) ?_ ?_) ?_ ?_
  · exact unsplit_of_pairwise sl
  · exact unsplit_of_pairwise sB
  · exact unsplit_of_pairwise sA
  · intro e he f hf
    rcases List.mem_append.1 he with he | he
    · exact hlA e he f hf
    · exact (hAB f hf e he).symm
  · exact unsplit_of_pairwise sr
  · intro e he f hf
    simp only [List.mem_append] at he
    rcases he with (he | he) | he
    · exact hlAr e (.inl he) f hf
    · exact hBr e he f hf
    · exact hlAr e (.inr he) f hf

/-- Two blocks of accesses of different instructions, weakly ordered, may be swapped. -/
theorem observable_swap {l A B r : List (CsrEvent n)} (hp : inProgramOrder (l ++ A ++ B ++ r))
    (hAB : ∀ e ∈ A, ∀ f ∈ B, e.instr ≠ f.instr ∧ Cfg.strong c e.num = false ∧ Cfg.strong c f.num = false)
    (hlA : ∀ e ∈ l, ∀ f ∈ A, e.instr ≠ f.instr) (hBr : ∀ e ∈ B, ∀ f ∈ r, e.instr ≠ f.instr) :
    observable c (l ++ A ++ B ++ r) (l ++ B ++ A ++ r) := by
  by_cases hA : A = []
  · subst hA
    simpa using observable_self (c := c) hp
  by_cases hB : B = []
  · subst hB
    simpa using observable_self (c := c) hp
  obtain ⟨hnodup, hsorted⟩ := hp
  refine ⟨?_, fun e f hef hfe => ?_, unsplit_swap hsorted hA hB hlA (fun e he f hf => (hAB e he f hf).1) hBr⟩
  · simp only [List.append_assoc]
    exact (List.perm_append_comm_assoc B A r).append_left l
  · rcases sublist_or_mem_of_sublist_swap hfe with hfe | ⟨he, hf⟩
    · exact absurd hfe (not_sublist_swap hnodup hef)
    · obtain ⟨hi, hse, hsf⟩ := hAB e he f hf
      exact mayReorder_of_not_strong hi hse hsf

end Observers

/-- Settles O51: each clause is one of the laws above; no order that others may see swaps two accesses of one
instruction, since `mayReorder` forbids it. -/
theorem accessesAreWeaklyOrdered : Obligations.AccessesAreWeaklyOrdered := by
  unfold Obligations.AccessesAreWeaklyOrdered
  intro n c
  refine ⟨fun e f => observable_pair, fun l A B r => observable_swap, fun p => observable_self,
    inProgramOrder_eventsOf, fun p seen hseen => ?_⟩
  obtain ⟨-, hreorder, hunsplit⟩ := hseen
  exact ⟨fun e f hef hi hfe => instr_ne_of_mayReorder (hreorder e f hef hfe) hi, hunsplit⟩

end Sys2Proof.Machine
end

section
/-! Decoding is inverse to encoding, by way of the fields of a word (30_encoding.md R51 to R58). -/

namespace Sys2Proof.Machine

/-! ## The field `funct3` of an instruction -/

/-- `funct3[2]`: whether bits 19-15 hold an immediate (30_encoding.md R53). -/
def formBit : Operand → BitVec 1
  | .reg _ => 0#1
  | .imm _ => 1#1

/-- `funct3[1:0]`: the operation (30_encoding.md R53). -/
def opBits : CsrOp → BitVec 2
  | .write => 0b01#2
  | .set => 0b10#2
  | .clear => 0b11#2

/-- The `funct3` of an instruction (30_encoding.md R53). -/
def funct3Of : Instr → BitVec 3
  | .csrrw _ _ _ => 0b001#3
  | .csrrs _ _ _ => 0b010#3
  | .csrrc _ _ _ => 0b011#3
  | .csrrwi _ _ _ => 0b101#3
  | .csrrsi _ _ _ => 0b110#3
  | .csrrci _ _ _ => 0b111#3

theorem funct3Of_eq_append (i : Instr) : funct3Of i = formBit (srcOf i) ++ opBits (opOf i) := by
  cases i <;> simp [funct3Of, formBit, srcOf, opBits, opOf]

theorem formBit_eq_iff {x y : Operand} : formBit x = formBit y ↔ ((∃ r, x = .reg r) ↔ ∃ r, y = .reg r) := by
  cases x <;> cases y <;> simp [formBit]

theorem opBits_eq_iff {x y : CsrOp} : opBits x = opBits y ↔ x = y := by
  cases x <;> cases y <;> decide

/-- Two instructions have the same `funct3` exactly when they are of one operation and one form. -/
theorem funct3Of_eq_iff {i j : Instr} :
    funct3Of i = funct3Of j ↔ opOf i = opOf j ∧ ((∃ r, srcOf i = .reg r) ↔ ∃ r, srcOf j = .reg r) := by
  have happend : ∀ (b c : BitVec 1) (x y : BitVec 2), b ++ x = c ++ y ↔ x = y ∧ b = c := by decide
  rw [funct3Of_eq_append, funct3Of_eq_append, happend, formBit_eq_iff, opBits_eq_iff]

/-! ## An instruction and its word -/

/-- Every instruction is encoded as its five fields. -/
theorem encode_eq_encodeFields (i : Instr) :
    encode i = encodeFields (funct3Of i) (rdOf i) (csrOf i) (srcOf i).field := by
  cases i <;> rfl

/-- A word decodes to an instruction exactly when its five fields are the instruction's. -/
theorem decodeWord_eq_some_iff_fields {w : InstrWord} {i : Instr} :
    decodeWord w = some i ↔ opcodeField w = opcodeSystem ∧ funct3Field w = funct3Of i ∧ rdField w = rdOf i ∧
      csrField w = csrOf i ∧ rs1Field w = (srcOf i).field := by
  constructor
  · intro hd
    unfold decodeWord at hd
    split_ifs at hd with ho
    all_goals
      cases hd
      exact ⟨ho, ‹_›, rfl, rfl, rfl⟩
  · rintro ⟨ho, hf, hrd, ha, hr⟩
    unfold decodeWord
    rw [hf, hrd, ha, hr, if_pos ho]
    cases i <;> rfl

/-- A word decodes to an instruction exactly when it is that instruction's word. -/
theorem decodeWord_eq_some_iff {w : InstrWord} {i : Instr} : decodeWord w = some i ↔ encode i = w := by
  rw [decodeWord_eq_some_iff_fields, encode_eq_encodeFields]
  constructor
  · rintro ⟨ho, hf, hrd, ha, hr⟩
    rw [← hf, ← hrd, ← ha, ← hr, encodeFields_of_fields ho]
  · rintro rfl
    simp

@[simp] theorem decodeWord_encode (i : Instr) : decodeWord (encode i) = some i := decodeWord_eq_some_iff.2 rfl

theorem decode_bytesOfWord_of_some {w : InstrWord} {i : Instr} (hd : decodeWord w = some i) :
    decode (bytesOfWord w) = .instr i := by
  have h := decode_bytesOfWord w []
  rwa [List.append_nil, hd] at h

theorem decodeTableWord_of_some {w : InstrWord} {i : Instr} (hd : decodeWord w = some i) :
    decodeTableWord 32 w.toNat = some i := by
  have hw : BitVec.ofNat 32 (w.toNat % 2 ^ 32) = w := by
    rw [Nat.mod_eq_of_lt w.isLt, BitVec.ofNat_toNat, BitVec.setWidth_eq]
  rw [decodeTableWord, hw, decode_bytesOfWord_of_some hd]

/-- Settles O1: a word decodes to the instruction it encodes, and its bytes and its number mean the same word. -/
theorem decodeOfEncodeIsIdentity : Obligations.DecodeOfEncodeIsIdentity := by
  unfold Obligations.DecodeOfEncodeIsIdentity
  intro i _
  have hd := decodeWord_encode i
  exact ⟨hd, decode_bytesOfWord_of_some hd, decodeTableWord_of_some hd⟩

/-- Settles O2: decoding to an instruction is being its word. -/
theorem encodeOfDecodedWordIsThatWord : Obligations.EncodeOfDecodedWordIsThatWord := by
  unfold Obligations.EncodeOfDecodedWordIsThatWord
  exact fun _ _ => decodeWord_eq_some_iff.1

/-- Settles O5: each word is the one its instruction is encoded as. -/
theorem decodeOfWrittenOutWords : Obligations.DecodeOfWrittenOutWords := by
  unfold Obligations.DecodeOfWrittenOutWords
  simp only [decodeWord_eq_some_iff]
  decide

end Sys2Proof.Machine
end

section
/-! The match and mask table, the words that are left over, and the places of the fields (30_encoding.md R51, R54, R57,
R59). -/

namespace Sys2Proof.Machine

/-! ## Match and mask -/

/-- Under the mask a word shows its `funct3` and its `opcode`, and nothing else. -/
theorem masked_eq_iff {w : InstrWord} {f : BitVec 3} :
    w &&& 0x0000707F#32 = encodeFields f 0#5 0#12 0#5 ↔ opcodeField w = opcodeSystem ∧ funct3Field w = f := by
  constructor
  · intro hm
    have ho := congrArg opcodeField hm
    have hf := congrArg funct3Field hm
    rw [opcodeField_encodeFields, opcodeField, BitVec.extractLsb'_and] at ho
    rw [funct3Field_encodeFields, funct3Field, BitVec.extractLsb'_and] at hf
    exact ⟨(BitVec.and_allOnes).symm.trans ho, (BitVec.and_allOnes).symm.trans hf⟩
  · rintro ⟨ho, rfl⟩
    conv_lhs => rw [← encodeFields_of_fields ho]
    exact Laws.MatchAndMask.masked _ _ _ _

/-- A row of the table: the word matches exactly when it decodes to the row's instruction at the word's own fields. -/
theorem masked_eq_iff_decodeWord {w m : InstrWord} {i : Instr} (hm : encode i &&& 0x0000707F#32 = m)
    (hrd : rdField w = rdOf i) (ha : csrField w = csrOf i) (hr : rs1Field w = (srcOf i).field) :
    w &&& 0x0000707F#32 = m ↔ decodeWord w = some i := by
  rw [← hm, encode_eq_encodeFields, Laws.MatchAndMask.masked, masked_eq_iff, decodeWord_eq_some_iff_fields]
  simp [hrd, ha, hr]

/-- The words that are not CSR instructions (30_encoding.md R59). -/
theorem decodeWord_eq_none_iff {w : InstrWord} :
    decodeWord w = none ↔ opcodeField w ≠ opcodeSystem ∨ funct3Field w = 0b000#3 ∨ funct3Field w = 0b100#3 := by
  have hleft : ∀ f : BitVec 3, f = 0b000#3 ∨ f = 0b100#3 ↔
      ¬ f = 0b001#3 ∧ ¬ f = 0b010#3 ∧ ¬ f = 0b011#3 ∧ ¬ f = 0b101#3 ∧ ¬ f = 0b110#3 ∧ ¬ f = 0b111#3 := by decide
  rw [hleft, decodeWord]
  by_cases ho : opcodeField w = opcodeSystem
  · simp [ho, ite_eq_iff]
  · simp [ho]

/-- The words left over are those that match no row of the table. -/
theorem decodeWord_eq_none_iff_masked {w : InstrWord} : decodeWord w = none ↔
    w &&& 0x0000707F#32 ∉ [0x1073#32, 0x2073#32, 0x3073#32, 0x5073#32, 0x6073#32, 0x7073#32] := by
  have hrows : [0x1073#32, 0x2073#32, 0x3073#32, 0x5073#32, 0x6073#32, 0x7073#32] =
      [0b001#3, 0b010#3, 0b011#3, 0b101#3, 0b110#3, 0b111#3].map (encodeFields · 0#5 0#12 0#5) := by decide
  have hleft : ∀ f : BitVec 3, f ∉ [0b001#3, 0b010#3, 0b011#3, 0b101#3, 0b110#3, 0b111#3] ↔
      f = 0b000#3 ∨ f = 0b100#3 := by decide
  rw [decodeWord_eq_none_iff, ← hleft, hrows, List.mem_map]
  simp only [eq_comm (b := w &&& _), masked_eq_iff, and_left_comm (b := opcodeField w = _), exists_and_left,
    exists_eq_right', not_and_or, ne_eq]

/-- The fields laid out with shifts (30_encoding.md R57, `Encode`). -/
theorem encodeFields_eq_shifts (f : BitVec 3) (rd : RegNum) (a : CsrNum) (r : BitVec 5) :
    encodeFields f rd a r =
      (a.setWidth 32 <<< 20) ||| (r.setWidth 32 <<< 15) ||| (f.setWidth 32 <<< 12)
        ||| (rd.setWidth 32 <<< 7) ||| 0x73#32 := by
  rw [encodeFields, ← BitVec.setWidth_eq (a ++ r ++ f ++ rd ++ opcodeSystem),
    BitVec.setWidth_append_append_append_eq_shiftLeft_setWidth_or, BitVec.setWidth_append_eq_shiftLeft_setWidth_or]
  simp [BitVec.shiftLeft_or_distrib, ← BitVec.shiftLeft_add, opcodeSystem]

/-- Settles O3: each row is one instruction of the law of match and mask. -/
theorem decodeFollowsMatchAndMaskTable : Obligations.DecodeFollowsMatchAndMaskTable := by
  unfold Obligations.DecodeFollowsMatchAndMaskTable
  refine ⟨fun w => ?_, encodeFields_eq_shifts⟩
  intro rd a r
  have row : ∀ {m : InstrWord} {i : Instr}, encode i &&& 0x0000707F#32 = m → rd = rdOf i → a = csrOf i →
      r = (srcOf i).field → (w &&& 0x0000707F#32 = m ↔ decodeWord w = some i) := masked_eq_iff_decodeWord
  exact ⟨row (Laws.MatchAndMask.csrrw rd a r).2 rfl rfl rfl, row (Laws.MatchAndMask.csrrs rd a r).2 rfl rfl rfl,
    row (Laws.MatchAndMask.csrrc rd a r).2 rfl rfl rfl, row (Laws.MatchAndMask.csrrwi rd a r).2 rfl rfl rfl,
    row (Laws.MatchAndMask.csrrsi rd a r).2 rfl rfl rfl, row (Laws.MatchAndMask.csrrci rd a r).2 rfl rfl rfl,
    decodeWord_eq_none_iff_masked⟩

/-! ## Words that are refused -/

theorem step_of_decodeWord_none {n : Nat} {h : Hart n} {w : InstrWord} (hw : h.cfg.wf = true)
    (hf : h.fetch = some w) (hd : decodeWord w = none) : step ⟨n, h⟩ = .refused (.notZicsr w) := by
  simp [step, hartStep, hw, hf, hd]

/-- Settles O4: the words the table leaves over, and the step's answer to them. -/
theorem otherWordsAreRefused : Obligations.OtherWordsAreRefused := by
  unfold Obligations.OtherWordsAreRefused
  exact ⟨fun _ => decodeWord_eq_none_iff, fun _ _ _ => step_of_decodeWord_none⟩

/-! ## The places of the fields -/

theorem toNat_csrField (w : InstrWord) : (csrField w).toNat = w.toNat / 2 ^ 20 := by
  have := w.isLt
  rw [csrField, BitVec.extractLsb'_toNat, Nat.shiftRight_eq_div_pow, Nat.mod_eq_of_lt (by omega)]

/-- Whether a word decodes depends on its `opcode` and its `funct3` alone. -/
theorem exists_decodeWord_of_same_fields {v w : InstrWord} {i : Instr} (ho : opcodeField v = opcodeField w)
    (hf : funct3Field v = funct3Field w) (hv : decodeWord v = some i) : ∃ j, decodeWord w = some j := by
  apply Option.ne_none_iff_exists'.1
  rw [Ne, decodeWord_eq_none_iff, ← ho, ← hf, ← decodeWord_eq_none_iff, hv]
  exact Option.some_ne_none i

/-- Settles O57: an instruction's parts are the fields of its word, and `funct3` tells operation and form. -/
theorem fieldsOfTheFormat : Obligations.FieldsOfTheFormat := by
  unfold Obligations.FieldsOfTheFormat
  refine ⟨fun w i hd => ?_, fun v w i ho hf hv => ?_, fun v w i j hv hw hop hform => ?_, fun a => ?_⟩
  · obtain ⟨ho, -, hrd, ha, hr⟩ := decodeWord_eq_some_iff_fields.1 hd
    exact ⟨ha.symm, ha ▸ toNat_csrField w, (csrOf i).isLt, hr.symm, hrd.symm, ho⟩
  · obtain ⟨j, hj⟩ := exists_decodeWord_of_same_fields ho hf hv
    obtain ⟨-, hfv, -⟩ := decodeWord_eq_some_iff_fields.1 hv
    obtain ⟨-, hfw, -⟩ := decodeWord_eq_some_iff_fields.1 hj
    exact ⟨j, hj, funct3Of_eq_iff.1 (hfw.symm.trans (hf.symm.trans hfv))⟩
  · obtain ⟨-, hfv, -⟩ := decodeWord_eq_some_iff_fields.1 hv
    obtain ⟨-, hfw, -⟩ := decodeWord_eq_some_iff_fields.1 hw
    exact hfv.trans ((funct3Of_eq_iff.2 ⟨hop, hform⟩).trans hfw.symm)
  · exact ⟨_, .csrrw 0#5 a 0#5, decodeWord_encode _, rfl⟩

end Sys2Proof.Machine
end

section
/-! The immediate is zero-extended, so that an immediate form reaches bits 4-0 alone (30_encoding.md R55). -/

namespace Sys2Proof.Machine

theorem getLsbD_zext_uimm {k : Nat} (n : Nat) (u : Uimm) (hk : 5 ≤ k) : (zext n u).getLsbD k = false := by
  simp [BitVec.getLsbD_of_ge u k hk]

/-- What a write leaves of a bit at which the operand is zero: CSRRW's and CSRRWI's zero where the bit is writable, and
else the bit. -/
theorem getLsbD_csrAfterWrite_of_false {n k : Nat} (op : CsrOp) (c wm : BitVec n) {m : BitVec n}
    (hm : m.getLsbD k = false) :
    (csrAfterWrite op c m wm).getLsbD k =
      if op = .write ∧ wm.getLsbD k = true then false else c.getLsbD k := by
  rw [← mergeBits_newValue op c c m wm, getLsbD_mergeBits, BitVec.getLsbD_and]
  cases op with
  | write =>
    cases hk : wm.getLsbD k with
    | false => simp
    | true =>
      have hmask : (explicitMask .write m).getLsbD k = true := by simp [explicitMask, BitVec.lt_of_getLsbD hk]
      simp [newValue, hm, hmask]
  | set => simp [explicitMask, hm]
  | clear => simp [explicitMask, hm]

/-- Settles O58: the operand has no bit from 5 up, and the CSR's new value follows it bit by bit. -/
theorem immediateIsZeroExtended : Obligations.ImmediateIsZeroExtended := by
  unfold Obligations.ImmediateIsZeroExtended
  intro w i u hd hsrc
  obtain ⟨-, -, -, -, hr⟩ := decodeWord_eq_some_iff_fields.1 hd
  rw [hsrc] at hr
  refine ⟨hr.symm, Nat.le_of_lt_succ u.isLt, fun n h hw => ⟨?_, fun hraises hread hwrite hb => ?_⟩⟩
  · rw [hsrc]
    exact BitVec.toNat_setWidth_of_le (Cfg.wf_width hw)
  refine ⟨_, exec_of_not_raises hraises, fun k hk => ?_⟩
  rw [hsrc, Hart.csrNext_getCsr_named hw hread hwrite hb]
  by_cases hwrites : writesCsr (opOf i) (Operand.imm u).field = true
  · rw [if_pos hwrites]
    exact getLsbD_csrAfterWrite_of_false _ _ _ (getLsbD_zext_uimm n u hk)
  · have hop : opOf i ≠ .write := fun hop => hwrites (hop ▸ writesCsr_write u)
    rw [if_neg hwrites, if_neg fun hset => hop hset.1]

end Sys2Proof.Machine
end

section
/-! Assembler terms: the instruction each stands for, where its operands fit (30_encoding.md R60 to R62). -/

namespace Sys2Proof.Machine

/-- The word of a term is its instruction's, under the condition that its operands fit. -/
theorem assemble_of_wf_iff {t : Asm} {p : Prop} [Decidable p] (hp : t.wf = true ↔ p) :
    assemble t = (if p then some else fun _ : InstrWord => none) (encode t.instr) := by
  rw [assemble, ite_apply]
  simp only [hp]

/-- Settles O56: each term by the law of `assemble`, with its own condition on the operands. -/
theorem pseudoinstructionsStandForTheSix : Obligations.PseudoinstructionsStandForTheSix := by
  unfold Obligations.PseudoinstructionsStandForTheSix
  intro rd csr r
  have three : (decide (rd < 32) && decide (csr < 4096) && decide (r < 32)) = true ↔
      rd < 32 ∧ csr < 4096 ∧ r < 32 := by simp [and_assoc]
  have two : (decide (csr < 4096) && decide (r < 32)) = true ↔ csr < 4096 ∧ r < 32 := by simp
  have dest : (decide (rd < 32) && decide (csr < 4096)) = true ↔ rd < 32 ∧ csr < 4096 := by simp
  exact ⟨assemble_of_wf_iff (t := .csrrw rd csr r) three, assemble_of_wf_iff (t := .csrrs rd csr r) three,
    assemble_of_wf_iff (t := .csrrc rd csr r) three, assemble_of_wf_iff (t := .csrrwi rd csr r) three,
    assemble_of_wf_iff (t := .csrrsi rd csr r) three, assemble_of_wf_iff (t := .csrrci rd csr r) three,
    (assemble_of_wf_iff (t := .csrr rd csr) dest).trans (ite_apply ..),
    assemble_of_wf_iff (t := .csrw csr r) two, assemble_of_wf_iff (t := .csrwi csr r) two,
    assemble_of_wf_iff (t := .csrs csr r) two, assemble_of_wf_iff (t := .csrc csr r) two,
    assemble_of_wf_iff (t := .csrsi csr r) two, assemble_of_wf_iff (t := .csrci csr r) two⟩

end Sys2Proof.Machine
end

section
/-! The state of a completed instruction, written out (40_csr_register_forms.md R65 to R67): once for the write forms,
which may go without the read, and once for set and clear, which may go without the write. -/

namespace Sys2Proof.Machine

/-- An instruction does not raise where its CSR is accessible and, if it writes, not read-only. -/
theorem not_raises_of_accessible {n : Nat} {h : Hart n} {i : Instr} (hacc : h.csrAccessible (csrOf i) = true)
    (hro : writesCsr (opOf i) (srcOf i).field = true → h.csrReadOnly (csrOf i) = false) : ¬ Raises h i :=
  not_raises_iff.2 (Hart.csrRaises_eq_false.2 ⟨hacc, hro⟩)

/-- A writing instruction on a read-only CSR, in the default form of R108. -/
theorem exec_of_writes_readOnly {n : Nat} {h : Hart n} {i : Instr} (hs : h.cfg.onTrap = .stop)
    (hwrites : writesCsr (opOf i) (srcOf i).field = true) (hro : h.csrReadOnly (csrOf i) = true) :
    exec i ⟨n, h⟩ = illegal h i := by
  rw [exec_of_raises (.inr ⟨hwrites, hro⟩), Hart.raise_stop hs, illegal]

/-! ## The operation of a set or a clear -/

theorem readsCsr_of_ne_write {op : CsrOp} (hop : op ≠ .write) (rd : RegNum) : readsCsr op rd = true := by
  simp [readsCsr, hop]

theorem writesCsr_of_ne_write {op : CsrOp} (hop : op ≠ .write) (r : BitVec 5) :
    writesCsr op r = decide (r ≠ 0#5) := by
  simp [writesCsr, hop]

theorem explicitMask_of_ne_write {op : CsrOp} (hop : op ≠ .write) {n : Nat} (m : BitVec n) : explicitMask op m = m := by
  cases op with
  | write => contradiction
  | set => rfl
  | clear => rfl

/-- Setting or clearing no bit gives the value read. -/
theorem newValue_zero_of_ne_write {op : CsrOp} (hop : op ≠ .write) {n : Nat} (t : BitVec n) :
    newValue op t (0#n) = t := by
  cases op with
  | write => contradiction
  | set => simp [newValue]
  | clear => simp [newValue]

/-! ## The state written out -/

/-- A write form writes, and with `rd ≠ x0` reads first. -/
theorem exec_of_eq_write {n : Nat} {h : Hart n} {i : Instr} (hop : opOf i = .write)
    (hacc : h.csrAccessible (csrOf i) = true) (hro : h.csrReadOnly (csrOf i) = false) :
    exec i ⟨n, h⟩ = .next ⟨n,
      let a := csrOf i
      let m := (srcOf i).value h
      if rdOf i = 0#5 then
        { (h.csrWrite a m (ones n)).implicitUpdate (encode i) (some a) with
            pc := h.pc + 4#n, history := ⟨a, none, some m⟩ :: h.history, raised := none }
      else
        { (((h.csrRead a).2.csrWrite a m (ones n)).implicitUpdate (encode i) (some a)).writeReg (rdOf i)
              (h.csrRead a).1 with
            pc := h.pc + 4#n, history := ⟨a, some (h.csrRead a).1, some m⟩ :: h.history, raised := none }⟩ := by
  rw [exec_of_not_raises (not_raises_of_accessible hacc fun _ => hro), hop]
  dsimp only
  split
  next hrd => rw [hrd]; rfl
  next hrd => rw [Hart.csrNext, Hart.csrEffects, Hart.accessOf, readsCsr_of_rd_ne_zero _ hrd]; rfl

/-- A set or a clear reads, and where its field in bits 19-15 is not zero writes then. -/
theorem exec_of_ne_write {n : Nat} {h : Hart n} {i : Instr} (hop : opOf i ≠ .write)
    (hacc : h.csrAccessible (csrOf i) = true) (hro : (srcOf i).field ≠ 0#5 → h.csrReadOnly (csrOf i) = false) :
    exec i ⟨n, h⟩ = .next ⟨n,
      let a := csrOf i
      let m := (srcOf i).value h
      let t := (h.csrRead a).1
      let S := (h.csrRead a).2
      let v := newValue (opOf i) t m
      if (srcOf i).field = 0#5 then
        { (S.implicitUpdate (encode i) none).writeReg (rdOf i) t with
            pc := h.pc + 4#n, history := ⟨a, some t, none⟩ :: h.history, raised := none }
      else
        { ((S.csrWrite a v m).implicitUpdate (encode i) (some a)).writeReg (rdOf i) t with
            pc := h.pc + 4#n, history := ⟨a, some t, some v⟩ :: h.history, raised := none }⟩ := by
  have hwrites := writesCsr_of_ne_write hop (srcOf i).field
  have hraises : ¬ Raises h i := not_raises_of_accessible hacc fun hw => hro (of_decide_eq_true (hwrites ▸ hw))
  rw [exec_of_not_raises hraises, Hart.csrNext, Hart.csrEffects, Hart.accessOf, readsCsr_of_ne_write hop, hwrites,
    explicitMask_of_ne_write hop]
  dsimp only
  by_cases hfield : (srcOf i).field = 0#5
  · rw [if_pos hfield, decide_eq_false (not_not_intro hfield)]; rfl
  · rw [if_neg hfield, decide_eq_true hfield]; rfl

/-- Settles O17: CSRRW is a write form. -/
theorem csrrwCompletesAsWrittenOut : Obligations.CsrrwCompletesAsWrittenOut := by
  unfold Obligations.CsrrwCompletesAsWrittenOut
  exact fun n h rd a rs1 => exec_of_eq_write (i := .csrrw rd a rs1) rfl

/-- Settles O18: CSRRS is a set. -/
theorem csrrsCompletesAsWrittenOut : Obligations.CsrrsCompletesAsWrittenOut := by
  unfold Obligations.CsrrsCompletesAsWrittenOut
  exact fun n h rd a rs1 => exec_of_ne_write (i := .csrrs rd a rs1) nofun

/-- Settles O19: CSRRC is a clear. -/
theorem csrrcCompletesAsWrittenOut : Obligations.CsrrcCompletesAsWrittenOut := by
  unfold Obligations.CsrrcCompletesAsWrittenOut
  exact fun n h rd a rs1 => exec_of_ne_write (i := .csrrc rd a rs1) nofun

end Sys2Proof.Machine
end

section
/-! The cases of `x0` and of a zero mask (40_csr_register_forms.md R68 to R71, R74). -/

namespace Sys2Proof.Machine

/-! ## Set and clear -/

/-- The parts of CSRRS and CSRRC. -/
theorem parts_of_csrrs_or_csrrc {i : Instr} {rd : RegNum} {a : CsrNum} {rs1 : RegNum}
    (hi : i = .csrrs rd a rs1 ∨ i = .csrrc rd a rs1) :
    opOf i ≠ .write ∧ srcOf i = .reg rs1 ∧ rdOf i = rd ∧ csrOf i = a := by
  rcases hi with rfl | rfl <;> exact ⟨nofun, rfl, rfl, rfl⟩

section SetOrClear

variable {n : Nat} {h : Hart n} {i : Instr} (hop : opOf i ≠ .write)

include hop

/-- The two accesses of a set or a clear: it reads, and writes where its field in bits 19-15 is not zero. -/
theorem Hart.csrAccessed_of_ne_write : h.csrAccessed (opOf i) (srcOf i) (rdOf i) (csrOf i) =
    if (srcOf i).field = 0#5 then (h.csrRead (csrOf i)).2
    else (h.csrRead (csrOf i)).2.csrWrite (csrOf i) (newValue (opOf i) (h.csrRead (csrOf i)).1 ((srcOf i).value h))
      ((srcOf i).value h) := by
  rw [Hart.csrAccessed, Hart.writtenValue_readPhase, Hart.writePhase, Hart.readPhase, readsCsr_of_ne_write hop,
    writesCsr_of_ne_write hop, explicitMask_of_ne_write hop]
  simp only [decide_eq_true_eq, ite_not, if_true]

theorem skipOf_of_ne_write (r : BitVec 5) (a : CsrNum) :
    skipOf (writesCsr (opOf i) r) a = if r = 0#5 then none else some a := by
  simp only [skipOf, writesCsr_of_ne_write hop, decide_eq_true_eq, ite_not]

/-- A set or a clear always reads, and the rest of it starts from the state the read left. -/
theorem exec_of_ne_write_always_reads (hraises : ¬ Raises h i) :
    ∃ (t : Hart n) (wr : Option (BitVec n)), exec i ⟨n, h⟩ = .next ⟨n, t⟩ ∧
      t.history = ⟨csrOf i, some (h.csrRead (csrOf i)).1, wr⟩ :: h.history ∧
      (rdOf i ≠ 0#5 → t.readReg (rdOf i) = (h.csrRead (csrOf i)).1) ∧
      (rdOf i = 0#5 → t.x = h.x) ∧
      (let m := (srcOf i).value h
       let S := (h.csrRead (csrOf i)).2
       let X := if (srcOf i).field = 0#5 then S
        else S.csrWrite (csrOf i) (newValue (opOf i) (h.csrRead (csrOf i)).1 m) m
       t.env = X.env ∧
       t.csr = (X.implicitUpdate (encode i) (if (srcOf i).field = 0#5 then none else some (csrOf i))).csr) := by
  refine ⟨_, (h.accessOf (opOf i) (srcOf i) (rdOf i) (csrOf i)).written, exec_of_not_raises hraises, ?_,
    h.csrNext_readReg_rd _ _ _ _, h.csrNext_x_of_rd_zero _ _ _ _, ?_⟩
  · have hread := h.accessOf_read (opOf i) (srcOf i) (rdOf i) (csrOf i)
    rw [readsCsr_of_ne_write hop, if_pos rfl] at hread
    rw [Hart.csrNext_history, ← hread]
    rfl
  · dsimp only
    rw [← Hart.csrAccessed_of_ne_write hop, ← skipOf_of_ne_write hop, ← Hart.csrEffects_eq]
    exact ⟨h.csrNext_env_eq .., h.csrNext_csr ..⟩

end SetOrClear

/-- Settles O26: with `rs1 = x0` a set or a clear only reads (`exec_of_ne_write`), and each always reads
(`exec_of_ne_write_always_reads`). -/
theorem setAndClearWithX0OnlyRead : Obligations.SetAndClearWithX0OnlyRead := by
  unfold Obligations.SetAndClearWithX0OnlyRead
  refine ⟨fun n h rd a hacc => ⟨?_, ?_⟩, ?_⟩
  · exact exec_of_ne_write (i := .csrrs rd a 0#5) nofun hacc (absurd rfl)
  · exact exec_of_ne_write (i := .csrrc rd a 0#5) nofun hacc (absurd rfl)
  · intro n h rd a rs1 i hi hraises
    obtain ⟨hop, hsrc, rfl, rfl⟩ := parts_of_csrrs_or_csrrc hi
    obtain ⟨t, wr, hx, hhist, hrd, -, haccess⟩ := exec_of_ne_write_always_reads hop hraises
    rw [hsrc] at haccess ⊢
    exact ⟨t, wr, hx, hhist, hrd, haccess⟩

/-- Under an empty mask a write that only stores leaves the CSR as it is. -/
theorem Hart.csrWrite_mask_zero {n : Nat} {h : Hart n} {a : CsrNum} (hn : (h.cfg.entry a).onWrite = .none)
    (v : BitVec n) : (h.csrWrite a v (0#n)).getCsr a = h.getCsr a := by
  rw [Hart.csrWrite_getCsr (by simp [hn]), if_pos rfl]
  simp [mergeBits]

/-- Settles O28: the instruction reads and writes, and with a zero mask the value written is the one read. -/
theorem zeroMaskInARegisterStillWrites : Obligations.ZeroMaskInARegisterStillWrites := by
  unfold Obligations.ZeroMaskInARegisterStillWrites
  intro n h rd a rs1 i hi hrs1 hzero hacc
  obtain ⟨hop, hsrc, rfl, rfl⟩ := parts_of_csrrs_or_csrrc hi
  have hfield : (srcOf i).field ≠ 0#5 := by rw [hsrc]; exact hrs1
  have hvalue : (srcOf i).value h = 0#n := by rw [hsrc]; exact hzero
  refine ⟨fun hro => ⟨?_, fun hn => Hart.csrWrite_mask_zero hn _⟩, fun hro hs => ?_⟩
  · rw [exec_of_ne_write hop hacc fun _ => hro]
    dsimp only
    rw [if_neg hfield, hvalue, newValue_zero_of_ne_write hop]
  · exact exec_of_writes_readOnly hs (writesCsr_of_field_ne_zero _ hfield) hro

/-! ## CSRRW with `rs1 = x0`, and `rd = rs1` -/

/-- Settles O29: the operand is `x0`'s zero, and the CSR keeps the bits that are not writable. -/
theorem csrrwWithX0WritesZero : Obligations.CsrrwWithX0WritesZero := by
  unfold Obligations.CsrrwWithX0WritesZero
  intro n h rd a hacc
  refine ⟨fun hro => ?_, fun hro hs => exec_of_writes_readOnly hs rfl hro⟩
  refine ⟨_, _, exec_of_not_raises (not_raises_of_accessible hacc fun _ => hro), rfl, fun hw hord => ?_⟩
  obtain ⟨-, -, hr, hn⟩ := hord
  refine (Hart.csrNext_getCsr_named hw ?_ ?_ (.inl rfl) _ _).trans ?_
  · exact fun hfree => nomatch hr.symm.trans hfree
  · exact fun hfree => nomatch hn.symm.trans hfree
  · simp [csrAfterWrite, opOf, srcOf, csrOf]

/-- With `rd = rs1` on a plain CSR with every bit writable: the CSR takes the operation's result at the register's old
value, the register the CSR's old value. -/
theorem exec_same_register {n : Nat} {h : Hart n} {i : Instr} {r : RegNum} (hw : h.cfg.wf = true)
    (hp : h.cfg.entry (csrOf i) = CsrEntry.plain n (ones n)) (hr : r ≠ 0#5) (hsrc : srcOf i = .reg r)
    (hrd : rdOf i = r) :
    ∃ t : Hart n, exec i ⟨n, h⟩ = .next ⟨n, t⟩ ∧
      t.getCsr (csrOf i) = newValue (opOf i) (h.getCsr (csrOf i)) (h.readReg r) ∧
      t.readReg r = h.getCsr (csrOf i) := by
  obtain ⟨t, hx, -, hcsr, hreg, -⟩ :=
    exec_plain hw hp (by rw [hsrc]; exact writesCsr_of_field_ne_zero _ hr)
  rw [hrd] at hreg
  refine ⟨t, hx, ?_, (hreg hr).trans (clip_of_le le_rfl _)⟩
  rw [hcsr, hsrc, Operand.value_reg]
  cases opOf i <;> simp [csrAfterWrite, newValue]

/-- Settles O30: the three instructions by `exec_same_register`. -/
theorem sameRegisterUsesInitialValue : Obligations.SameRegisterUsesInitialValue := by
  unfold Obligations.SameRegisterUsesInitialValue
  refine ⟨fun n h a r hw hp hr => ⟨?_, ?_, ?_⟩, by decide⟩
  · exact exec_same_register (i := .csrrw r a r) hw hp hr rfl rfl
  · exact exec_same_register (i := .csrrs r a r) hw hp hr rfl rfl
  · exact exec_same_register (i := .csrrc r a r) hw hp hr rfl rfl

/-! ## `rd = x0` -/

/-- The next state is the state after steps 2 to 5 with the registers, `pc`, the history and the record of a trap
replaced. -/
theorem Hart.csrNext_eq {n : Nat} (h : Hart n) (word : InstrWord) (op : CsrOp) (src : Operand) (rd : RegNum)
    (a : CsrNum) : h.csrNext word op src rd a =
      { h.csrEffects word op src rd a with
          x := (h.csrNext word op src rd a).x, pc := h.pc + 4#n,
          history := h.accessOf op src rd a :: h.history, raised := none } := by
  obtain ⟨x, hx⟩ := (h.csrEffects word op src rd a).destPhase_eq rd (h.readPhase (readsCsr op rd) a).1
  simp only [Hart.csrNext, hx]

/-- An implicit update that is not under no law does not depend on the instruction word. -/
theorem Hart.implicitUpdate_congr_word {n : Nat} {h : Hart n} (hw : h.cfg.wf = true)
    (hi : ∀ b, (h.cfg.entry b).implicit ≠ .free) (word word' : InstrWord) (skip : Option CsrNum) :
    h.implicitUpdate word' skip = h.implicitUpdate word skip := by
  refine (Hart.implicitUpdate_withRegs h.x hw hi word word' skip).trans ?_
  rw [← (Hart.Kept.implicitUpdate h word skip).x]

/-- The destination register shows in the registers alone, where it does not decide whether the CSR is read and no
implicit update is under no law. -/
theorem Hart.csrNext_congr_rd {n : Nat} {h : Hart n} (hw : h.cfg.wf = true)
    (hi : ∀ b, (h.cfg.entry b).implicit ≠ .free) {op : CsrOp} {rd rd' : RegNum}
    (hreads : readsCsr op rd' = readsCsr op rd) (word word' : InstrWord) (src : Operand) (a : CsrNum) :
    h.csrNext word op src rd a =
      { h.csrNext word' op src rd' a with x := (h.csrNext word op src rd a).x } := by
  have haccessed : h.csrAccessed op src rd' a = h.csrAccessed op src rd a := by rw [Hart.csrAccessed, hreads]; rfl
  have hcfg := (Hart.Kept.csrAccessed h op src rd a).cfg
  have heffects : h.csrEffects word' op src rd' a = h.csrEffects word op src rd a := by
    rw [Hart.csrEffects_eq, Hart.csrEffects_eq, haccessed]
    exact Hart.implicitUpdate_congr_word (hcfg ▸ hw) (hcfg ▸ hi) word word' _
  have hevent : h.accessOf op src rd' a = h.accessOf op src rd a := by rw [Hart.accessOf, hreads]; rfl
  rw [h.csrNext_eq word, h.csrNext_eq word', heffects, hevent]

/-- Settles O31: the read and the write through the instruction's entry in the history, and the comparison of two
destinations by `Hart.csrNext_congr_rd`. -/
theorem destinationX0 : Obligations.DestinationX0 := by
  unfold Obligations.DestinationX0
  refine ⟨fun n h a r => ⟨fun i hi hraises => ?_, fun i hi hraises => ?_⟩, ?_⟩
  · have hparts : opOf i ≠ .write ∧ (srcOf i).field = r ∧ rdOf i = 0#5 ∧ csrOf i = a := by
      rcases hi with rfl | rfl | rfl | rfl <;> exact ⟨nofun, rfl, rfl, rfl⟩
    obtain ⟨hop, rfl, hrd, rfl⟩ := hparts
    obtain ⟨t, wr, hx, hhist, -, hregs, henv, -⟩ := exec_of_ne_write_always_reads hop hraises
    exact ⟨t, wr, hx, hhist, hregs hrd, fun hr => by rw [henv, if_pos hr]⟩
  · have hparts : opOf i = .write ∧ rdOf i = 0#5 ∧ csrOf i = a := by
      rcases hi with rfl | rfl <;> exact ⟨rfl, rfl, rfl⟩
    obtain ⟨hop, hrd, rfl⟩ := hparts
    refine ⟨_, (srcOf i).value h, exec_of_not_raises hraises, ?_, h.csrNext_x_of_rd_zero _ _ _ _ hrd, ?_⟩
    · rw [Hart.csrNext_history, hop, hrd]; rfl
    · rw [Hart.csrNext_env_eq, hop, hrd]; rfl
  · intro n h i j hw himplicit hop hopj hsrcj haj hrd hraises
    have hraises' : ¬ Raises h j := by unfold Raises; rw [hopj, hsrcj, haj]; exact hraises
    have hreads : readsCsr (opOf i) (rdOf j) = readsCsr (opOf i) (rdOf i) := by
      rw [readsCsr_of_ne_write hop, readsCsr_of_ne_write hop]
    refine ⟨_, _, exec_of_not_raises hraises, exec_of_not_raises hraises', ?_⟩
    rw [hopj, hsrcj, haj, Hart.csrNext_congr_rd hw himplicit hreads (encode i) (encode j),
      h.csrNext_x_of_rd_zero _ _ _ _ hrd]

end Sys2Proof.Machine
end

section
/-! The bits above a CSR's width (40_csr_register_forms.md R75). -/

namespace Sys2Proof.Machine

/-- Values that agree below the width are clipped to the same. -/
theorem clip_congr {n w : Nat} {v v' : BitVec n} (hv : ∀ k, k < w → v.getLsbD k = v'.getLsbD k) :
    clip w v = clip w v' := by
  refine BitVec.eq_of_getLsbD_eq fun k _ => ?_
  rw [getLsbD_clip, getLsbD_clip]
  by_cases hk : k < w
  · rw [hv k hk]
  · simp [hk]

theorem getLsbD_of_clip {n w k : Nat} {v : BitVec n} (hv : clip w v = v) (hk : w ≤ k) : v.getLsbD k = false := by
  rw [← hv, getLsbD_clip, decide_eq_false (Nat.not_lt.2 hk), Bool.false_and, Bool.and_false]

/-- A merge reads value and mask below the width alone, where the writable mask lies within the width. -/
theorem mergeBits_congr {n w : Nat} {old v v' em em' wm : BitVec n} (hwm : clip w wm = wm)
    (hv : ∀ k, k < w → v.getLsbD k = v'.getLsbD k ∧ em.getLsbD k = em'.getLsbD k) :
    mergeBits old v (em &&& wm) = mergeBits old v' (em' &&& wm) := by
  refine BitVec.eq_of_getLsbD_eq fun k _ => ?_
  rw [getLsbD_mergeBits, getLsbD_mergeBits, BitVec.getLsbD_and, BitVec.getLsbD_and]
  by_cases hk : k < w
  · rw [(hv k hk).1, (hv k hk).2]
  · rw [getLsbD_of_clip hwm (Nat.not_lt.1 hk), Bool.and_false, Bool.and_false]
    rfl

/-- A write depends on the bits of its value and its mask below the CSR's width alone. -/
theorem Hart.csrWrite_congr {n : Nat} {h : Hart n} {a : CsrNum} (hw : h.cfg.wf = true) {v em v' em' : BitVec n}
    (hv : ∀ k, k < (h.cfg.entry a).width → v.getLsbD k = v'.getLsbD k ∧ em.getLsbD k = em'.getLsbD k) :
    h.csrWrite a v em = h.csrWrite a v' em' := by
  have hstore : h.storeCsr a v em = h.storeCsr a v' em' := by
    rw [Hart.storeCsr, Hart.storeCsr, Hart.csrMask, mergeBits_congr (Cfg.wf_entry hw a).2 hv]
  have hdraw : h.freeWriteDraw a v em = h.freeWriteDraw a v' em' := by
    rw [Hart.freeWriteDraw, Hart.freeWriteDraw, clip_congr fun k hk => (hv k hk).1, clip_congr fun k hk => (hv k hk).2]
  rw [Hart.csrWrite, Hart.csrWrite, hstore, hdraw]

/-- Settles O60: the write by `Hart.csrWrite_congr`; the value read is clipped to the width. -/
theorem bitsAboveTheWidthHaveNoEffect : Obligations.BitsAboveTheWidthHaveNoEffect := by
  unfold Obligations.BitsAboveTheWidthHaveNoEffect
  exact fun n h a hw => ⟨fun v em v' em' => Hart.csrWrite_congr hw, fun k => getLsbD_of_clip (h.clip_csrRead a)⟩

end Sys2Proof.Machine
end

section
/-! The step of the hart on a word that decodes (40_csr_register_forms.md R64). -/

namespace Sys2Proof.Machine

theorem hartStep_of_decodeWord_some {n : Nat} {h : Hart n} {w : InstrWord} {i : Instr} (hw : h.cfg.wf = true)
    (hf : h.fetch = some w) (hd : decodeWord w = some i) : hartStep ⟨n, h⟩ = exec i ⟨n, h⟩ := by
  simp [hartStep, hw, hf, hd]

/-- Settles O6: the step of the hart on a word that decodes, and the environment's move after each outcome. -/
theorem stepRunsDecodedInstruction : Obligations.StepRunsDecodedInstruction := by
  unfold Obligations.StepRunsDecodedInstruction
  intro n h w i hw hf hd
  have hstep := hartStep_of_decodeWord_some hw hf hd
  refine ⟨hstep, ?_⟩
  rw [step, hstep]
  cases exec i ⟨n, h⟩ <;> rfl

end Sys2Proof.Machine
end

section
/-! The immediate forms (41_csr_immediate_forms.md R76 to R79, R81): the state each completes with, and that bits 19-15
count through the operand and through the zero test alone, so that an immediate form is its register form and reads no
integer register. -/

namespace Sys2Proof.Machine

/-! ## The state written out -/

/-- Settles O20: CSRRWI is a write form. -/
theorem csrrwiCompletesAsWrittenOut : Obligations.CsrrwiCompletesAsWrittenOut := by
  unfold Obligations.CsrrwiCompletesAsWrittenOut
  exact fun n h rd a uimm => exec_of_eq_write (i := .csrrwi rd a uimm) rfl

/-- Settles O21: CSRRSI is a set. -/
theorem csrrsiCompletesAsWrittenOut : Obligations.CsrrsiCompletesAsWrittenOut := by
  unfold Obligations.CsrrsiCompletesAsWrittenOut
  exact fun n h rd a uimm => exec_of_ne_write (i := .csrrsi rd a uimm) nofun

/-- Settles O22: CSRRCI is a clear. -/
theorem csrrciCompletesAsWrittenOut : Obligations.CsrrciCompletesAsWrittenOut := by
  unfold Obligations.CsrrciCompletesAsWrittenOut
  exact fun n h rd a uimm => exec_of_ne_write (i := .csrrci rd a uimm) nofun

/-! ## Set and clear always read -/

/-- The parts of CSRRSI and CSRRCI. -/
theorem parts_of_csrrsi_or_csrrci {i : Instr} {rd : RegNum} {a : CsrNum} {uimm : Uimm}
    (hi : i = .csrrsi rd a uimm ∨ i = .csrrci rd a uimm) :
    opOf i ≠ .write ∧ srcOf i = .imm uimm ∧ rdOf i = rd ∧ csrOf i = a := by
  rcases hi with rfl | rfl <;> exact ⟨nofun, rfl, rfl, rfl⟩

/-- Settles O27: a set or a clear always reads (`exec_of_ne_write_always_reads`), in the immediate forms too. -/
theorem immediateSetAndClearAlwaysRead : Obligations.ImmediateSetAndClearAlwaysRead := by
  unfold Obligations.ImmediateSetAndClearAlwaysRead
  intro n h rd a uimm i hi hraises
  obtain ⟨hop, hsrc, rfl, rfl⟩ := parts_of_csrrsi_or_csrrci hi
  obtain ⟨t, wr, hx, hhist, hrd, -, haccess⟩ := exec_of_ne_write_always_reads hop hraises
  rw [hsrc] at haccess ⊢
  exact ⟨t, wr, hx, hhist, hrd, haccess⟩

/-! ## An immediate form and its register form -/

/-- Whether an instruction writes depends on its field through the zero test alone. -/
theorem writesCsr_congr {r r' : BitVec 5} (hzero : r = 0#5 ↔ r' = 0#5) (op : CsrOp) :
    writesCsr op r' = writesCsr op r := by
  simp only [writesCsr, ne_eq, hzero]

/-- The next state depends on the source operand through its value and through whether the instruction writes, and on
the instruction word not at all, where no implicit update is under no law. -/
theorem Hart.csrNext_congr_src {n : Nat} {h : Hart n} (hw : h.cfg.wf = true)
    (hi : ∀ b, (h.cfg.entry b).implicit ≠ .free) {op : CsrOp} {src src' : Operand}
    (hvalue : src'.value h = src.value h) (hwrites : writesCsr op src'.field = writesCsr op src.field)
    (word word' : InstrWord) (rd : RegNum) (a : CsrNum) :
    h.csrNext word' op src' rd a = h.csrNext word op src rd a := by
  have haccessed : h.csrAccessed op src' rd a = h.csrAccessed op src rd a := by
    rw [Hart.csrAccessed, hvalue, hwrites]; rfl
  have hcfg := (Hart.Kept.csrAccessed h op src rd a).cfg
  have heffects : h.csrEffects word' op src' rd a = h.csrEffects word op src rd a := by
    rw [Hart.csrEffects_eq, Hart.csrEffects_eq, haccessed, hwrites]
    exact Hart.implicitUpdate_congr_word (hcfg ▸ hw) (hcfg ▸ hi) word word' _
  have hevent : h.accessOf op src' rd a = h.accessOf op src rd a := by
    rw [Hart.accessOf, hvalue, hwrites]; rfl
  rw [Hart.csrNext, heffects, hevent]; rfl

/-- Two instructions of one operation, destination and CSR, whose operands are equal and pass the zero test together,
complete with the same state. -/
theorem exec_congr_src {n : Nat} {h : Hart n} {i j : Instr} (hw : h.cfg.wf = true)
    (himplicit : ∀ b, (h.cfg.entry b).implicit ≠ .free) (hop : opOf j = opOf i) (hrd : rdOf j = rdOf i)
    (ha : csrOf j = csrOf i) (hvalue : (srcOf j).value h = (srcOf i).value h)
    (hzero : (srcOf i).field = 0#5 ↔ (srcOf j).field = 0#5) (hraises : ¬ Raises h i) :
    ∃ t : Hart n, exec i ⟨n, h⟩ = .next ⟨n, t⟩ ∧ exec j ⟨n, h⟩ = .next ⟨n, t⟩ := by
  have hwrites := writesCsr_congr hzero (opOf i)
  have hraises' : ¬ Raises h j := by unfold Raises; rw [hop, ha, hwrites]; exact hraises
  refine ⟨_, exec_of_not_raises hraises, ?_⟩
  rw [exec_of_not_raises hraises', hop, hrd, ha,
    Hart.csrNext_congr_src hw himplicit hvalue hwrites (encode i) (encode j)]

/-- Settles O32: the three pairs by `exec_congr_src`. -/
theorem immediateFormMatchesRegisterForm : Obligations.ImmediateFormMatchesRegisterForm := by
  unfold Obligations.ImmediateFormMatchesRegisterForm
  intro n h rd a r u hvalue hzero hw himplicit
  refine ⟨?_, ?_, ?_⟩
  · exact exec_congr_src (j := .csrrwi rd a u) hw himplicit rfl rfl rfl hvalue.symm hzero
  · exact exec_congr_src (j := .csrrsi rd a u) hw himplicit rfl rfl rfl hvalue.symm hzero
  · exact exec_congr_src (j := .csrrci rd a u) hw himplicit rfl rfl rfl hvalue.symm hzero

/-! ## No register is read -/

/-- The event depends on the registers through the operand alone. -/
theorem Hart.accessOf_withRegs {n : Nat} {h : Hart n} (x : Vector (BitVec n) 31) {a : CsrNum}
    (hr : (h.cfg.entry a).onRead ≠ .free) {src : Operand} (hsrc : src.value { h with x := x } = src.value h)
    (op : CsrOp) (rd : RegNum) : Hart.accessOf { h with x := x } op src rd a = h.accessOf op src rd a := by
  rw [Hart.accessOf, Hart.readPhase_withRegs x hr, hsrc]; rfl

/-- Settles O33: an instruction reads the registers through a register operand alone (`registersReadAndWritten`), and
an immediate form has none; with the operand the event is the same (`Hart.accessOf_withRegs`). -/
theorem immediateFormsReadNoRegister : Obligations.ImmediateFormsReadNoRegister := by
  unfold Obligations.ImmediateFormsReadNoRegister
  intro n h x rd a u i hi hw hc hraises
  have hparts : srcOf i = .imm u ∧ rdOf i = rd := by
    rcases hi with rfl | rfl | rfl <;> exact ⟨rfl, rfl⟩
  obtain ⟨himm, rfl⟩ := hparts
  have hnoreg : ∀ r, srcOf i ≠ .reg r := fun r hreg => nomatch himm.symm.trans hreg
  obtain ⟨-, t, ht, -, -, -, -, hregs, -⟩ := registersReadAndWritten n h i hw hc hraises
  obtain ⟨k, hk, hcsr, henv, hrd⟩ := hregs x fun r hreg => absurd hreg (hnoreg r)
  refine ⟨t, k, ht, hk, hcsr, henv, ?_⟩
  -- the two next states written out, for `pc` and the event
  rw [eq_csrNext_of_exec hraises ht, eq_csrNext_of_exec (mt (raises_withRegs x hc i).1 hraises) hk] at hrd ⊢
  refine ⟨rfl, ?_, hrd⟩
  have hsrc := Operand.value_withRegs (h := h) x fun r hreg => absurd hreg (hnoreg r)
  rw [Hart.csrNext_history, Hart.csrNext_history, Hart.accessOf_withRegs x (hc.onRead _) hsrc]

end Sys2Proof.Machine
end

section
/-! When a CSR is read and written, and what an access does beside giving or storing the value
(42_csr_access_effects.md R82, R88). -/

namespace Sys2Proof.Machine

/-! ## The table -/

/-- The accesses an instruction's entry holds are those the two predicates of the table say (R83). -/
theorem Hart.accessOf_isSome {n : Nat} (h : Hart n) (op : CsrOp) (src : Operand) (rd : RegNum) (a : CsrNum) :
    ((h.accessOf op src rd a).read.isSome, (h.accessOf op src rd a).written.isSome) =
      (readsCsr op rd, writesCsr op src.field) := by
  rw [Hart.accessOf_read, Hart.accessOf_written]
  cases readsCsr op rd <;> cases writesCsr op src.field <;> rfl

/-- Settles O34: the entry is the one of the two predicates, and each instruction's row is their value. -/
theorem tableOfReadAndWriteConditions : Obligations.TableOfReadAndWriteConditions := by
  unfold Obligations.TableOfReadAndWriteConditions
  intro n h i hraises
  refine ⟨_, _, exec_of_not_raises hraises, rfl, rfl, (h.accessOf_isSome ..).trans ?_⟩
  cases i with
  | csrrw rd a rs1 => exact congrArg (·, true) (readsCsr_write rd)
  | csrrs rd a rs1 => exact congrArg (true, ·) (writesCsr_set rs1)
  | csrrc rd a rs1 => exact congrArg (true, ·) (writesCsr_clear rs1)
  | csrrwi rd a uimm => exact congrArg (·, true) (readsCsr_write rd)
  | csrrsi rd a uimm => exact congrArg (true, ·) (writesCsr_set uimm)
  | csrrci rd a uimm => exact congrArg (true, ·) (writesCsr_clear uimm)

/-! ## The light bulb -/

/-- A write of `v` to a CSR with every bit writable stores `v`. -/
theorem Hart.getCsr_storeCsr_ones {n : Nat} {h : Hart n} {a : CsrNum} (hm : h.csrMask a = ones n) (v : BitVec n) :
    (h.storeCsr a v (ones n)).getCsr a = v := by
  simp [Hart.storeCsr, hm, mergeBits]

section LightBulb

variable {n : Nat} {h : Hart n} {a : CsrNum} (hw : h.cfg.wf = true)
  (hp : h.cfg.entry a = { CsrEntry.plain n (ones n) with onRead := .bulbOn, onWrite := .bulbOffWhenOdd })

include hp

/-- An odd value written turns the bulb off, an even one leaves it. -/
theorem Hart.csrWrite_bulb (v : BitVec n) :
    (h.csrWrite a v (ones n)).env.bulb = if v.getLsbD 0 = true then false else h.env.bulb := by
  have hn : (h.cfg.entry a).onWrite = .bulbOffWhenOdd := by rw [hp]
  have hstored := Hart.getCsr_storeCsr_ones (h := h) (a := a) (by rw [Hart.csrMask, hp]; rfl) v
  split
  next hodd => rw [Hart.csrWrite_odd hn (by rw [hstored]; exact hodd), Hart.setBulb_bulb]
  next heven => rw [Hart.csrWrite_even hn (by rw [hstored]; exact heven)]; rfl

include hw

/-- CSRRW with `rd = x0` stores the register in the bulb's CSR, and turns the bulb off where the value is odd. -/
theorem exec_csrrw_bulb (r : RegNum) :
    ∃ t : Hart n, exec (.csrrw 0#5 a r) ⟨n, h⟩ = .next ⟨n, t⟩ ∧ t.cfg = h.cfg ∧
      (∀ j, t.readReg j = h.readReg j) ∧ t.getCsr a = h.readReg r ∧
      t.env.bulb = if (h.readReg r).getLsbD 0 = true then false else h.env.bulb := by
  have hraises : ¬ Raises h (.csrrw 0#5 a r) :=
    not_raises_of_accessible (by simp [Hart.csrAccessible, csrOf, hp, CsrEntry.plain])
      (by simp [Hart.csrReadOnly, csrOf, hp, CsrEntry.plain])
  refine ⟨_, exec_of_not_raises hraises, h.csrNext_cfg .., ?_, ?_, ?_⟩
  · exact Hart.readReg_congr (h.csrNext_x_of_rd_zero _ _ _ _ rfl)
  · refine (Hart.csrNext_getCsr_named hw (by simp [csrOf, hp]) (by simp [csrOf, hp]) (.inl rfl) _ _).trans ?_
    simp [csrAfterWrite, opOf, srcOf, csrOf, Hart.csrMask, hp, CsrEntry.plain]
  · have hwrite : h.csrAccessed .write (.reg r) 0#5 a = h.csrWrite a (h.readReg r) (ones n) := rfl
    rw [Hart.csrNext_env_eq, opOf, srcOf, rdOf, csrOf, hwrite, Hart.csrWrite_bulb hp]

/-- CSRRS with `rs1 = x0` turns the bulb on, and changes neither the bulb's CSR nor a register other than `rd`. -/
theorem exec_csrrs_bulb (rd : RegNum) :
    ∃ t : Hart n, exec (.csrrs rd a 0#5) ⟨n, h⟩ = .next ⟨n, t⟩ ∧ t.cfg = h.cfg ∧
      (∀ j, j ≠ rd → t.readReg j = h.readReg j) ∧ t.getCsr a = h.getCsr a ∧ t.env.bulb = true := by
  have hraises : ¬ Raises h (.csrrs rd a 0#5) :=
    not_raises_of_accessible (by simp [Hart.csrAccessible, csrOf, hp, CsrEntry.plain]) nofun
  refine ⟨_, exec_of_not_raises hraises, h.csrNext_cfg .., ?_, ?_, ?_⟩
  · exact fun j hj => h.csrNext_readReg_other _ _ _ _ _ hj
  · exact Hart.csrNext_getCsr_named hw (by simp [csrOf, hp]) (by simp [csrOf, hp])
      (.inr (by rw [csrOf, hp]; rfl)) _ _
  · have hread : h.csrAccessed .set (.reg 0#5) rd a = (h.csrRead a).2 := rfl
    rw [Hart.csrNext_env_eq, opOf, srcOf, rdOf, csrOf, hread, Hart.csrRead_bulbOn (by rw [hp]), Hart.setBulb_bulb]

end LightBulb

/-- Settles O35: the write, the read and the write again by `exec_csrrw_bulb` and `exec_csrrs_bulb`, the register
written keeping its value throughout. -/
theorem lightBulbSequence : Obligations.LightBulbSequence := by
  unfold Obligations.LightBulbSequence
  intro n h a r rd hw hp _ hrd
  obtain ⟨t, ht, tcfg, treg, tget, tbulb⟩ := exec_csrrw_bulb hw hp r
  refine ⟨fun hodd => ?_, fun heven => ⟨t, ht, tbulb.trans (if_neg (by simp [heven]))⟩⟩
  obtain ⟨u, hu, ucfg, ureg, uget, ubulb⟩ := exec_csrrs_bulb (tcfg ▸ hw) (tcfg ▸ hp) rd
  obtain ⟨v, hv, -, -, vget, vbulb⟩ := exec_csrrw_bulb (ucfg ▸ tcfg ▸ hw) (ucfg ▸ tcfg ▸ hp) r
  have hreg : u.readReg r = h.readReg r := (ureg r hrd.symm).trans (treg r)
  refine ⟨t, u, v, ht, tbulb.trans (if_pos hodd), tget, hu, ubulb, uget.trans tget, hv, ?_, ?_⟩
  · exact vbulb.trans (if_pos (hreg ▸ hodd))
  · rw [vget, hreg, uget, tget]

end Sys2Proof.Machine
end

section
/-! CSRs that execution modifies by itself (42_csr_access_effects.md R90 to R93): `ImplicitUpdate`, and reading and
writing a counter. -/

namespace Sys2Proof.Machine

/-! ## `ImplicitUpdate` -/

/-- Settles O37: `ImplicitUpdate` reaches the storage of the CSRs alone, and there not the CSR in `skip`. -/
theorem implicitUpdateLaw : Obligations.ImplicitUpdateLaw := by
  unfold Obligations.ImplicitUpdateLaw
  intro n h word skip
  obtain ⟨hx, hpc, hcfg, hprog, -, hhistory, -⟩ := Hart.Kept.implicitUpdate h word skip
  refine ⟨hx, hpc, h.implicitUpdate_env word skip, hprog, hcfg, hhistory, ?_⟩
  rintro hw a rfl
  exact Hart.getCsr_implicitUpdate_skip hw word a

/-- Adding one and clipping to `w` bits is adding one modulo `2^w`. -/
theorem toNat_clip_add_one {n w : Nat} (hw : w ≤ n) (v : BitVec n) :
    (clip w (v + 1#n)).toNat = (v.toNat + 1) % 2 ^ w := by
  rw [toNat_clip hw, BitVec.toNat_add, BitVec.toNat_ofNat, Nat.add_mod_mod,
    Nat.mod_mod_of_dvd _ (Nat.pow_dvd_pow 2 hw)]

/-- Settles O36: by the laws of `ImplicitUpdate` for a CSR in `skip`, a counter and a CSR it does not modify. -/
theorem counterAddsOneModuloItsWidth : Obligations.CounterAddsOneModuloItsWidth := by
  unfold Obligations.CounterAddsOneModuloItsWidth
  intro n h word skip c hw hc
  have hkept := Hart.Kept.implicitUpdate h word skip
  refine ⟨?_, fun hs => ?_, fun b => Hart.getCsr_implicitUpdate_none hw word skip, hkept.x, hkept.pc,
    h.implicitUpdate_env word skip⟩
  · rintro rfl
    exact Hart.getCsr_implicitUpdate_skip hw word c
  · rw [Hart.getCsr_implicitUpdate_count hw word hc hs, toNat_clip_add_one (Cfg.wf_entry hw c).1]

/-! ## An ordinary CSR -/

section OrdinaryCsr

variable {n : Nat} {h t : Hart n} {i : Instr} {c : CsrNum}

/-- No access to an ordinary CSR is under no law. -/
theorem Ordinary.not_free (ho : Ordinary h c) :
    (h.cfg.entry c).onRead ≠ .free ∧ (h.cfg.entry c).onWrite ≠ .free := by
  obtain ⟨-, -, hr, hn⟩ := ho
  simp [hr, hn]

theorem Ordinary.not_raises (ha : csrOf i = c) (ho : Ordinary h c) : ¬ Raises h i := by
  obtain ⟨hacc, hro, -, -⟩ := ho
  subst ha
  exact not_raises_of_accessible hacc fun _ => hro

/-- A CSR that is accessible in every state is ordinary in every state of the same configuration. -/
theorem Ordinary.of_cfg_eq (ho : Ordinary h c) (hacc : (h.cfg.entry c).access = .always) (hcfg : t.cfg = h.cfg) :
    Ordinary t c := by
  obtain ⟨-, hro, hr, hn⟩ := ho
  refine ⟨?_, ?_, hcfg ▸ hr, hcfg ▸ hn⟩
  · rw [Hart.csrAccessible, hcfg, hacc]
  · rw [Hart.csrReadOnly, hcfg]
    exact hro

/-- An instruction that writes an ordinary CSR leaves the table's value in it, whatever execution does to that CSR by
itself. -/
theorem exec_ordinary_write (hw : h.cfg.wf = true) (ha : csrOf i = c) (ho : Ordinary h c)
    (hwrites : writesCsr (opOf i) (srcOf i).field = true) :
    ∃ t : Hart n, exec i ⟨n, h⟩ = .next ⟨n, t⟩ ∧ t.cfg = h.cfg ∧
      t.getCsr c = csrAfterWrite (opOf i) (h.getCsr c) ((srcOf i).value h) (h.csrMask c) := by
  obtain ⟨hr, hn⟩ := ho.not_free
  refine ⟨_, exec_of_not_raises (ho.not_raises ha), h.csrNext_cfg .., ?_⟩
  rw [ha, Hart.csrNext_getCsr_named hw hr hn (.inl hwrites), if_pos hwrites]

end OrdinaryCsr

/-! ## A counter -/

/-- A counter that the instruction does not write counts it. -/
theorem Hart.csrNext_getCsr_counted {n : Nat} {h : Hart n} {op : CsrOp} {src : Operand} {a c : CsrNum}
    (hw : h.cfg.wf = true) (hr : (h.cfg.entry a).onRead ≠ .free) (hn : (h.cfg.entry a).onWrite ≠ .free)
    (hc : (h.cfg.entry c).implicit = .count) (hs : ¬ (c = a ∧ writesCsr op src.field = true)) (word : InstrWord)
    (rd : RegNum) :
    (h.csrNext word op src rd a).getCsr c = clip (h.cfg.entry c).width (h.getCsr c + 1#n) := by
  rw [h.csrNext_getCsr_settled word op src rd a hw hr hn c (by simp [hc])]
  exact if_pos ⟨hc, hs⟩

/-- An instruction that only reads a counter counts itself, and reads the value prior to that. -/
theorem exec_counter_read {n : Nat} {h : Hart n} {i : Instr} {c : CsrNum} (hw : h.cfg.wf = true)
    (hc : (h.cfg.entry c).implicit = .count) (ha : csrOf i = c) (ho : Ordinary h c)
    (hwrites : writesCsr (opOf i) (srcOf i).field = false) :
    ∃ t : Hart n, exec i ⟨n, h⟩ = .next ⟨n, t⟩ ∧ t.cfg = h.cfg ∧
      t.getCsr c = clip (h.cfg.entry c).width (h.getCsr c + 1#n) ∧
      (rdOf i ≠ 0#5 → t.readReg (rdOf i) = clip (h.cfg.entry c).width (h.getCsr c)) := by
  obtain ⟨hr, hn⟩ := ho.not_free
  refine ⟨_, exec_of_not_raises (ho.not_raises ha), h.csrNext_cfg .., ?_, fun hrd => ?_⟩
  · rw [ha, Hart.csrNext_getCsr_counted hw hr hn hc (by simp [hwrites])]
  · rw [h.csrNext_readReg_rd _ _ _ _ hrd, ha, Hart.csrRead_value hr]

/-- Settles O38: `rd` gets the value the read gives, in the state before the instruction; and the first of two reads
counts itself before the second (`exec_counter_read`). -/
theorem counterReadGivesPriorValue : Obligations.CounterReadGivesPriorValue := by
  unfold Obligations.CounterReadGivesPriorValue
  intro n h c hw hc ho
  refine ⟨?_, fun hacc r1 r2 hr1 hr2 => ?_⟩
  · intro i ha _ hrd
    refine ⟨_, exec_of_not_raises (ho.not_raises ha), ?_⟩
    rw [h.csrNext_readReg_rd _ _ _ _ hrd, ha, Hart.csrRead_value ho.not_free.1]
  · obtain ⟨t, ht, hcfg, tget, treg⟩ := exec_counter_read (c := c) (i := .csrrs r1 c 0#5) hw hc rfl ho rfl
    obtain ⟨u, hu, -, -, ureg⟩ :=
      exec_counter_read (c := c) (i := .csrrs r2 c 0#5) (hcfg ▸ hw) (hcfg ▸ hc) rfl (ho.of_cfg_eq hacc hcfg) rfl
    refine ⟨t, u, ht, hu, treg hr1, ?_⟩
    have hle := (Cfg.wf_entry hw c).1
    have tval : t.readReg r1 = clip (h.cfg.entry c).width (h.getCsr c) := treg hr1
    have uval : u.readReg r2 = clip (h.cfg.entry c).width (h.getCsr c + 1#n) :=
      (ureg hr2).trans (by rw [hcfg, tget, clip_clip])
    rw [uval, tval, toNat_clip_add_one hle, toNat_clip hle, Nat.mod_add_mod]

/-- Settles O39: a write leaves the table's value in the counter (`exec_ordinary_write`), every other instruction counts
itself there (`exec_counter_read`, `Hart.csrNext_getCsr_counted`), and in a counter as wide as the hart nothing is
clipped. -/
theorem counterWriteReplacesIncrement : Obligations.CounterWriteReplacesIncrement := by
  unfold Obligations.CounterWriteReplacesIncrement
  intro n h c hw hp
  have ho : Ordinary h c := by simp [Ordinary, Hart.csrAccessible, Hart.csrReadOnly, hp, CsrEntry.plain]
  have hc : (h.cfg.entry c).implicit = .count := by rw [hp]
  have hacc : (h.cfg.entry c).access = .always := by rw [hp]; rfl
  have hclip : ∀ v : BitVec n, clip (h.cfg.entry c).width v = v := fun v => clip_of_le (by rw [hp]; rfl) v
  have hmask : h.csrMask c = ones n := by rw [Hart.csrMask, hp]; rfl
  refine ⟨?written_is_read, ?read_counts, ?zero_mask_keeps, ?imm_read_counts, ?other_counts⟩
  case written_is_read =>
    intro rs1 r2 hr2
    obtain ⟨t, ht, hcfg, tget⟩ := exec_ordinary_write (c := c) (i := .csrrw 0#5 c rs1) hw rfl ho rfl
    obtain ⟨u, hu, -, -, ureg⟩ :=
      exec_counter_read (c := c) (i := .csrrs r2 c 0#5) (hcfg ▸ hw) (hcfg ▸ hc) rfl (ho.of_cfg_eq hacc hcfg) rfl
    have tval : t.getCsr c = h.readReg rs1 := by
      rw [tget, hmask]
      exact csrAfterWrite_write_ones _ _
    exact ⟨t, u, ht, tval, hu, (ureg hr2).trans (by rw [hcfg, hclip, tval])⟩
  case read_counts =>
    intro rd
    obtain ⟨t, ht, -, tget, -⟩ := exec_counter_read (c := c) (i := .csrrs rd c 0#5) hw hc rfl ho rfl
    exact ⟨t, ht, tget.trans (hclip _)⟩
  case zero_mask_keeps =>
    intro rd rs1 hrs1 hzero
    obtain ⟨t, ht, -, tget⟩ :=
      exec_ordinary_write (c := c) (i := .csrrs rd c rs1) hw rfl ho (writesCsr_of_field_ne_zero _ hrs1)
    refine ⟨t, ht, tget.trans ?_⟩
    simp [csrAfterWrite, opOf, srcOf, hzero]
  case imm_read_counts =>
    intro rd
    obtain ⟨t, ht, -, tget, -⟩ := exec_counter_read (c := c) (i := .csrrsi rd c 0#5) hw hc rfl ho rfl
    exact ⟨t, ht, tget.trans (hclip _)⟩
  case other_counts =>
    intro i hne hraises hr hn
    refine ⟨_, exec_of_not_raises hraises, ?_⟩
    rw [Hart.csrNext_getCsr_counted hw hr hn hc (fun hs => hne hs.1.symm), hclip]

end Sys2Proof.Machine
end

section
/-! Exceptions (60_exceptions.md R102 to R108, R116): what an instruction that raises answers in each of the two forms
of R108, and the kind of a step's outcome by condition. -/

namespace Sys2Proof.Machine

/-! ## The two outcomes of an instruction -/

/-- An instruction that raises, in the default form of R108. -/
theorem exec_of_raises_stop {n : Nat} {h : Hart n} {i : Instr} (hs : h.cfg.onTrap = .stop) (hr : Raises h i) :
    exec i ⟨n, h⟩ = illegal h i := by
  rw [exec_of_raises hr, Hart.raise_stop hs, illegal]

/-- An instruction that raises, where `TrapEntry` is taken. -/
theorem exec_of_raises_enter {n : Nat} {h : Hart n} {i : Instr} (he : h.cfg.onTrap = .enter) (hr : Raises h i) :
    exec i ⟨n, h⟩ = .next ⟨n, h.enterTrap .illegalInstruction (encode i)⟩ := by
  rw [exec_of_raises hr, Hart.raise_enter he]

@[simp] theorem Hart.enterTrap_x {n : Nat} (h : Hart n) (c : Cause) (w : InstrWord) :
    (h.enterTrap c w).x = (Config.trapEntry c w h.toArch).x := rfl

@[simp] theorem Hart.enterTrap_pc {n : Nat} (h : Hart n) (c : Cause) (w : InstrWord) :
    (h.enterTrap c w).pc = (Config.trapEntry c w h.toArch).pc := rfl

@[simp] theorem Hart.enterTrap_env {n : Nat} (h : Hart n) (c : Cause) (w : InstrWord) :
    (h.enterTrap c w).env = (Config.trapEntry c w h.toArch).env := rfl

/-- A set or a clear whose field in bits 19-15 is zero completes also on a read-only CSR, and only reads it. -/
theorem exec_of_ne_write_field_zero {n : Nat} {h : Hart n} {i : Instr} (hop : opOf i ≠ .write)
    (hfield : (srcOf i).field = 0#5) (hacc : h.csrAccessible (csrOf i) = true) :
    ∃ t : Hart n, exec i ⟨n, h⟩ = .next ⟨n, t⟩ ∧
      t.history = ⟨csrOf i, some (h.csrRead (csrOf i)).1, none⟩ :: h.history := by
  refine ⟨_, exec_of_ne_write hop hacc (absurd hfield), ?_⟩
  simp only [if_pos hfield]

/-- Settles O44: the write forms write; set and clear write where their field in bits 19-15 is not zero, and only read
where it is. -/
theorem writingAReadOnlyCsrRaises : Obligations.WritingAReadOnlyCsrRaises := by
  unfold Obligations.WritingAReadOnlyCsrRaises
  intro n h rd a r hacc hro hs
  refine ⟨exec_of_writes_readOnly hs (writesCsr_write r) hro, exec_of_writes_readOnly hs (writesCsr_write r) hro,
    fun hr => ?_, ?_⟩
  · have hwrites (op : CsrOp) : writesCsr op r = true := writesCsr_of_field_ne_zero op hr
    exact ⟨exec_of_writes_readOnly hs (hwrites _) hro, exec_of_writes_readOnly hs (hwrites _) hro,
      exec_of_writes_readOnly hs (hwrites _) hro, exec_of_writes_readOnly hs (hwrites _) hro⟩
  · rintro i (rfl | rfl | rfl | rfl)
    all_goals exact exec_of_ne_write_field_zero nofun rfl hacc

/-- Settles O45: a CSR that is not accessible is the first of the two reasons to raise. -/
theorem inaccessibleCsrRaises : Obligations.InaccessibleCsrRaises := by
  unfold Obligations.InaccessibleCsrRaises
  exact fun n h i hacc hs => exec_of_raises_stop hs (.inl hacc)

/-- Settles O46: an instruction completes exactly where it does not raise. -/
theorem onlyIllegalInstructionIsRaised : Obligations.OnlyIllegalInstructionIsRaised := by
  unfold Obligations.OnlyIllegalInstructionIsRaised
  intro n h i hs
  by_cases hr : Raises h i
  · exact .inr ⟨exec_of_raises_stop hs hr, hr⟩
  · exact .inl ⟨⟨_, exec_of_not_raises hr⟩, hr⟩

/-- Settles O47: the two forms of R108, and the record that a completed instruction clears. -/
theorem raisedExceptionTakesTrapEntry : Obligations.RaisedExceptionTakesTrapEntry := by
  unfold Obligations.RaisedExceptionTakesTrapEntry
  intro n h i
  refine ⟨fun hr => ⟨fun hs => ?_, fun he => ?_⟩, fun hr => ?_⟩
  · exact exec_of_raises_stop hs hr
  · exact ⟨_, exec_of_raises_enter he hr, by simp⟩
  · exact ⟨_, exec_of_not_raises hr, h.csrNext_raised ..⟩

/-! ## The kind of a step's outcome -/

/-- The environment's move does not touch the record of an exception, so that it keeps the kind of the outcome. -/
@[simp] theorem stepKind_afterEnv (o : Host.Outcome State Fault Refusal) : stepKind (afterEnv o) = stepKind o := by
  cases o with
  | next t => simp only [afterEnv, stepKind, Hart.envStep_raised]
  | fault r => rfl
  | refused r => rfl

/-- A raised exception is of the kind `trap` in both forms of R108. -/
theorem stepKind_raise {n : Nat} (h : Hart n) (c : Cause) (word : InstrWord) :
    stepKind (h.raise c word) = .trap ⟨c, h.pc.toNat, word⟩ := by
  cases ht : h.cfg.onTrap with
  | stop => rw [Hart.raise_stop ht]; rfl
  | enter => rw [Hart.raise_enter ht]; rfl

theorem Hart.fetch_eq_none {n : Nat} {h : Hart n} :
    h.fetch = none ↔ h.pc.toNat % 4 ≠ 0 ∨ h.prog.readWord h.pc.toNat = none := by
  unfold Hart.fetch
  split <;> simp [*]

/-- A step on a word that decodes: the instruction, and then the environment's move. -/
theorem step_of_decodeWord_some {n : Nat} {h : Hart n} {w : InstrWord} {i : Instr} (hw : h.cfg.wf = true)
    (hf : h.fetch = some w) (hd : decodeWord w = some i) : step ⟨n, h⟩ = afterEnv (exec i ⟨n, h⟩) := by
  rw [step, hartStep_of_decodeWord_some hw hf hd]

/-- Settles O7: row by row. The kind is read from the instruction's own outcome, which the environment's move keeps. -/
theorem stepOutcomeByCondition : Obligations.StepOutcomeByCondition := by
  unfold Obligations.StepOutcomeByCondition
  intro n h hw
  refine ⟨fun hnone => ?_, fun w hpc hword => ⟨fun hd => ?_, fun i hd => ?_⟩⟩
  · rw [step_of_fetch_none hw (Hart.fetch_eq_none.2 hnone)]
    exact ⟨rfl, rfl⟩
  · rw [step_of_decodeWord_none hw (Hart.fetch_eq_some.2 ⟨hpc, hword⟩) hd]
    exact ⟨rfl, rfl⟩
  · rw [step_of_decodeWord_some hw (Hart.fetch_eq_some.2 ⟨hpc, hword⟩) hd, stepKind_afterEnv]
    obtain rfl := decodeWord_eq_some_iff.1 hd
    refine ⟨fun hr => ⟨?_, fun hs => ?_⟩, fun hacc hro => ?_⟩
    · rw [exec_of_raises hr, stepKind_raise]
    · rw [exec_of_raises_stop hs hr, illegal, afterEnv_fault]
    · have hr : ¬ Raises h i := not_raises_of_accessible hacc fun hwrites => by simpa [hwrites] using hro
      rw [exec_of_not_raises hr]
      exact ⟨rfl, _, rfl, rfl⟩

end Sys2Proof.Machine
end

section
/-! Well-formedness of a configuration, and the end of a run (70_reset_and_hazards.md R125, R122). -/

namespace Sys2Proof.Machine

/-- An ill-formed configuration is refused before anything is fetched (70_reset_and_hazards.md R125). -/
theorem step_of_ill_formed {n : Nat} {h : Hart n} (hw : h.cfg.wf = false) : step ⟨n, h⟩ = .refused .illFormedConfig := by
  simp [step, hartStep, hw]

/-- Settles O8: the step checks first; a mask within the CSR's width has no bit from the width up. -/
theorem illFormedConfigurationIsRefused : Obligations.IllFormedConfigurationIsRefused := by
  unfold Obligations.IllFormedConfigurationIsRefused
  refine ⟨fun n h => step_of_ill_formed, fun n c hc => ⟨Cfg.wf_width hc, fun a => ?_⟩⟩
  obtain ⟨hwidth, hmask⟩ := Cfg.wf_entry hc a
  exact ⟨hwidth, fun k => getLsbD_of_clip hmask⟩

/-! ## How a run goes on and how it ends -/

/-- What the first step makes of a run: it ends the run in one of the four ways, or the run goes on from the state the
environment's move leaves, with one step fewer. -/
theorem runTo_succ_cases {endPc k : Nat} {s : State} {e : RunEnd} (hrun : runTo endPc (k + 1) s = e) :
    (∃ r, hartStep s = .fault r ∧ e = .fault r) ∨
    (∃ r, hartStep s = .refused r ∧ e = .refused r) ∨
    ∃ t, hartStep s = .next t ∧
      ((∃ r, t.hart.raised = some r ∧ e = .trapped t) ∨
       (t.hart.raised = none ∧ t.hart.pc.toNat = endPc ∧ e = .endedWell t) ∨
       (t.hart.raised = none ∧ t.hart.pc.toNat ≠ endPc ∧ runTo endPc k ⟨t.xlen, t.hart.envStep⟩ = e)) := by
  rw [runTo] at hrun
  cases hs : hartStep s with
  | fault r => rw [hs] at hrun; exact .inl ⟨r, rfl, hrun.symm⟩
  | refused r => rw [hs] at hrun; exact .inr (.inl ⟨r, rfl, hrun.symm⟩)
  | next t =>
    simp only [hs] at hrun
    refine .inr (.inr ⟨t, rfl, ?_⟩)
    cases hr : t.hart.raised with
    | some r => exact .inl ⟨r, rfl, by simpa [hr] using hrun.symm⟩
    | none =>
      by_cases hpc : t.hart.pc.toNat = endPc
      · exact .inr (.inl ⟨rfl, hpc, by simpa [hr, hpc] using hrun.symm⟩)
      · exact .inr (.inr ⟨rfl, hpc, by simpa [hr, hpc] using hrun⟩)

/-- A run ends well at `endPc`, in the state a step that raised nothing left. -/
theorem hartStep_of_runTo_endedWell {endPc k : Nat} {s t : State} (hrun : runTo endPc k s = .endedWell t) :
    t.hart.pc.toNat = endPc ∧ t.hart.raised = none ∧ ∃ u, hartStep u = .next t := by
  induction k generalizing s with
  | zero => cases hrun
  | succ k ih =>
    obtain ⟨_, -, ⟨⟩⟩ | ⟨_, -, ⟨⟩⟩ | ⟨_, hs, ⟨_, -, ⟨⟩⟩ | ⟨hr, hpc, ⟨⟩⟩ | ⟨-, -, hrest⟩⟩ := runTo_succ_cases hrun
    · exact ⟨hpc, hr, s, hs⟩
    · exact ih hrest

/-- A run that ends in `TrapEntry`'s state ends in the state a step that raised left. -/
theorem hartStep_of_runTo_trapped {endPc k : Nat} {s t : State} (hrun : runTo endPc k s = .trapped t) :
    ∃ u r, hartStep u = .next t ∧ t.hart.raised = some r := by
  induction k generalizing s with
  | zero => cases hrun
  | succ k ih =>
    obtain ⟨_, -, ⟨⟩⟩ | ⟨_, -, ⟨⟩⟩ | ⟨_, hs, ⟨r, hr, ⟨⟩⟩ | ⟨-, -, ⟨⟩⟩ | ⟨-, -, hrest⟩⟩ := runTo_succ_cases hrun
    · exact ⟨s, r, hs, hr⟩
    · exact ih hrest

/-! ## How many steps a run takes -/

/-- A step of the hart that raised nothing completed an instruction, and so added 4 to `pc`. -/
theorem hartStep_next_of_raised_none {n : Nat} {h : Hart n} {t : State} (hx : hartStep ⟨n, h⟩ = .next t)
    (hr : t.hart.raised = none) : ∃ u : Hart n, t = ⟨n, u⟩ ∧ u.pc = h.pc + 4#n := by
  obtain ⟨-, w, i, -, -, ⟨-, rfl⟩ | ⟨-, -, rfl⟩⟩ := hartStep_cases hx
  · exact ⟨_, rfl, h.csrNext_pc ..⟩
  · rw [Hart.enterTrap_raised] at hr; cases hr

/-- Below the end of the address space `pc + 4` does not wrap. -/
theorem toNat_add_four_of_lt {n : Nat} {pc : BitVec n} (hpc : pc.toNat + 4 < 2 ^ n) :
    (pc + 4#n).toNat = pc.toNat + 4 := by
  rw [toNat_add_four, Nat.mod_eq_of_lt (by omega : 4 < 2 ^ n), Nat.mod_eq_of_lt hpc]

/-- A run that is `d + 1` instructions from its end ends well only after more than `d` steps, and has ended, well or
badly, by then: each step that goes on brings `pc` 4 nearer, and none passes the end. -/
theorem runTo_of_distance {endPc d j n : Nat} {h : Hart n} (hend : h.pc.toNat + 4 * (d + 1) = endPc)
    (hlt : endPc < 2 ^ n) :
    (∀ t, runTo endPc j ⟨n, h⟩ = .notYet t → j ≤ d) ∧ (∀ t, runTo endPc j ⟨n, h⟩ = .endedWell t → d < j) := by
  induction j generalizing d h with
  | zero => exact ⟨fun t _ => Nat.zero_le d, fun t hrun => by cases hrun⟩
  | succ j ih =>
    obtain ⟨_, -, he⟩ | ⟨_, -, he⟩ | ⟨t, hs, hnext⟩ := runTo_succ_cases (rfl : runTo endPc (j + 1) ⟨n, h⟩ = _)
    · simp [he]
    · simp [he]
    obtain ⟨_, -, he⟩ | ⟨hr, hpc, he⟩ | ⟨hr, hpc, he⟩ := hnext
    · simp [he]
    all_goals
      obtain ⟨u, rfl, hu⟩ := hartStep_next_of_raised_none hs hr
      have hadd : u.pc.toNat = h.pc.toNat + 4 := by rw [hu, toNat_add_four_of_lt (by omega)]
    case inl =>
      have hlast : d = 0 := by simp only at hpc; omega
      simp [he, hlast]
    case inr =>
      obtain ⟨d, rfl⟩ : ∃ d', d = d' + 1 := ⟨d - 1, by simp only at hpc; omega⟩
      have hrest : u.envStep.pc.toNat + 4 * (d + 1) = endPc := by rw [Hart.envStep_pc]; omega
      rw [← he]
      exact ⟨fun t ht => Nat.succ_le_succ ((ih hrest).1 t ht), fun t ht => Nat.succ_lt_succ ((ih hrest).2 t ht)⟩

/-- Settles O53: a launched run of `k` instructions is `k` instructions from its end, and how it ends is what its last
step did. -/
theorem runEndsWithinItsLength : Obligations.RunEndsWithinItsLength := by
  unfold Obligations.RunEndsWithinItsLength
  refine ⟨?_, fun endPc k s t hrun => ?_, fun endPc k s t hrun => ?_⟩
  · rintro pc0 k ⟨n, h⟩ hlaunch hk hlt
    obtain ⟨d, rfl⟩ := Nat.exists_eq_succ_of_ne_zero hk.ne'
    have hend : h.pc.toNat + 4 * (d + 1) = pc0 + 4 * (d + 1) := congrArg (· + 4 * (d + 1)) hlaunch.pc_eq
    refine ⟨fun t hrun => ?_, fun j hj t hrun => ?_⟩
    · exact Nat.not_succ_le_self d ((runTo_of_distance hend hlt).1 t hrun)
    · exact Nat.not_lt_of_le (Nat.le_of_lt_succ hj) ((runTo_of_distance hend hlt).2 t hrun)
  · obtain ⟨hpc, hr, u, hu⟩ := hartStep_of_runTo_endedWell hrun
    exact ⟨hpc, hr, u, hu, by simp only [hu, stepKind, hr]⟩
  · obtain ⟨u, r, hu, hr⟩ := hartStep_of_runTo_trapped hrun
    exact ⟨u, r, hu, by simp only [hu, stepKind, hr]⟩

end Sys2Proof.Machine
end
